-- ==== Sys2Proof/Word.lean ====
section
/-! DEFINITION. The word type of the CORE, its byte type and its register index (00_scope.md R6, R9; 10_state.md R14). -/

namespace Sys2Proof

/-- `Word32`: a 32-bit bit pattern, bit 0 the least significant (R9).  Registers, the program counter, addresses,
instructions and memory words are all of this width (R6). -/
abbrev Word := BitVec 32

/-- One byte of storage.  No access of the CORE moves less than a whole word (R36, R39); bytes are only the unit
in which the model's memory list is written down. -/
abbrev Byte := BitVec 8

/-- A general-register index, 0 to 31 (R14). -/
abbrev Reg := Fin 32

/-- The length of an instruction in bytes, which is also the default advance of the program counter (R48, R21). -/
def instrBytes : Word := 4#32

end Sys2Proof
end

