-- ==== Sys2Proof/Config.lean ====
section
/-! DEFINITION. The implementation parameters the spec leaves open (00_scope.md R7): where memory begins and how
large its two segments are; and the opcode table (R8).  `GPR_RESET` and `MEM_INIT` are arguments of `State.resetWith`; the
table's default stands in Decode.lean, and the configuration of `State.reset` in Machine/Layout.lean.  The spec leaves no result of an instruction open, so there is no opaque free value. -/

namespace Sys2Proof

/-- The parameter `OPCODE_TABLE` (R8): for each R-format operation the funct that selects it, and for each I- and J-format
operation the opcode.  The document gives no numbers; the default is `OpcodeTable.mips`.  That opcode 0 is the R format is
no part of the table (R50, R51). -/
structure OpcodeTable where
  sll : BitVec 6
  srl : BitVec 6
  jr : BitVec 6
  addu : BitVec 6
  subu : BitVec 6
  and : BitVec 6
  or : BitVec 6
  slt : BitVec 6
  j : BitVec 6
  jal : BitVec 6
  beq : BitVec 6
  bne : BitVec 6
  addiu : BitVec 6
  andi : BitVec 6
  ori : BitVec 6
  lui : BitVec 6
  lw : BitVec 6
  sw : BitVec 6
deriving DecidableEq, Repr

/-- The parameters `BASE`, `INSTR_WORDS` and `DATA_WORDS` of R7 and `OPCODE_TABLE` of R8.  The document names them and gives
no value, so a state carries them as plain data and every statement over all states holds for every value (log entry 1). -/
structure Config where
  /-- `BASE`: the byte address of the first word of memory, and the reset vector (R7, R28). -/
  base : Word
  /-- `INSTR_WORDS`: the capacity of the instruction segment in words (R7). -/
  instrWords : Nat
  /-- `DATA_WORDS`: the capacity of the data segment in words (R7). -/
  dataWords : Nat
  /-- `OPCODE_TABLE`: the numbers the decoder reads (R8). -/
  opcodes : OpcodeTable
deriving DecidableEq, Repr

/-- What R7 requires of its parameters: an aligned base, room for at least one instruction word, and a memory that
ends below 2^32 so that the stack pointer's reset value is representable. -/
def Config.wf (c : Config) : Bool :=
  c.base.toNat % 4 == 0 && decide (1 ≤ c.instrWords) &&
    decide (c.base.toNat + 4 * (c.instrWords + c.dataWords) < 2 ^ 32)

end Sys2Proof
end

