-- ==== Sys2Proof/Syntax.lean ====
section
/-! DEFINITION. The eighteen instructions (00_scope.md R2, 30_encoding.md R54) with every field of their formats
(R51 to R53), and the names of the decode failures (60_exceptions.md R99). -/

namespace Sys2Proof

/-- The three instruction formats (R12, R49). -/
inductive Shape where
  | r | i | j
deriving DecidableEq, Repr

/-- The eight operations of the R format, selected by `funct` (R54). -/
inductive ROp where
  | sll | srl | jr | addu | subu | and | or | slt
deriving DecidableEq, Repr

/-- The eight operations of the I format, selected by the opcode (R54). -/
inductive IOp where
  | beq | bne | addiu | andi | ori | lui | lw | sw
deriving DecidableEq, Repr

/-- The two operations of the J format (R54). -/
inductive JOp where
  | j | jal
deriving DecidableEq, Repr

/-- One instruction, one constructor per row of the opcode table.  Every field of the format is kept, also those the
operation ignores (R61), so that encoding a decoded instruction gives its word back (R65). -/
inductive Instr where
  | sll (rs rt rd : Reg) (shamt : BitVec 5)
  | srl (rs rt rd : Reg) (shamt : BitVec 5)
  | jr (rs rt rd : Reg) (shamt : BitVec 5)
  | addu (rs rt rd : Reg) (shamt : BitVec 5)
  | subu (rs rt rd : Reg) (shamt : BitVec 5)
  | and (rs rt rd : Reg) (shamt : BitVec 5)
  | or (rs rt rd : Reg) (shamt : BitVec 5)
  | slt (rs rt rd : Reg) (shamt : BitVec 5)
  | beq (rs rt : Reg) (imm : BitVec 16)
  | bne (rs rt : Reg) (imm : BitVec 16)
  | addiu (rs rt : Reg) (imm : BitVec 16)
  | andi (rs rt : Reg) (imm : BitVec 16)
  | ori (rs rt : Reg) (imm : BitVec 16)
  | lui (rs rt : Reg) (imm : BitVec 16)
  | lw (rs rt : Reg) (imm : BitVec 16)
  | sw (rs rt : Reg) (imm : BitVec 16)
  | j (target : BitVec 26)
  | jal (target : BitVec 26)
deriving DecidableEq, Repr

/-- The format of an instruction (R54). -/
def Instr.shape : Instr → Shape
  | .sll .. | .srl .. | .jr .. | .addu .. | .subu .. | .and .. | .or .. | .slt .. => .r
  | .beq .. | .bne .. | .addiu .. | .andi .. | .ori .. | .lui .. | .lw .. | .sw .. => .i
  | .j .. | .jal .. => .j

/-- Why a word does not decode (R50, R99). -/
inductive DecodeFailure where
  /-- The word is `0x00000000`, the terminator: stop code 0, a halt. -/
  | zeroWord
  /-- The opcode is neither 0 nor one of the supported opcodes: stop code 1. -/
  | unknownOpcode
  /-- The opcode is 0, the word is not zero, and the funct is unsupported: stop code 2. -/
  | unknownFunct
deriving DecidableEq, Repr

end Sys2Proof
end

