-- ==== Sys2Proof/WellFormed.lean ====
section
/-! DEFINITION. Which instructions have an encoding of their own. -/

namespace Sys2Proof

/-- The fields of an R-format instruction with this funct are not all zero. -/
def notZeroWord (funct : BitVec 6) (rs rt rd : Reg) (shamt : BitVec 5) : Bool :=
  !(funct == 0#6 && rs == 0 && rt == 0 && rd == 0 && shamt == 0#5)

/-- Under an opcode table, an instruction is well-formed unless it would encode to `0x00000000`, which is the terminator and
not an instruction (30_encoding.md R50, R55): in the default table that is the `sll` whose fields are all zero, and no
other.  Every other limit on a field (an index of 0 to 31, a shift of 0 to 31, 16 and 26 bits) is in the field's type. -/
def Instr.wf (t : OpcodeTable) : Instr → Bool
  | .sll rs rt rd shamt => notZeroWord t.sll rs rt rd shamt
  | .srl rs rt rd shamt => notZeroWord t.srl rs rt rd shamt
  | .jr rs rt rd shamt => notZeroWord t.jr rs rt rd shamt
  | .addu rs rt rd shamt => notZeroWord t.addu rs rt rd shamt
  | .subu rs rt rd shamt => notZeroWord t.subu rs rt rd shamt
  | .and rs rt rd shamt => notZeroWord t.and rs rt rd shamt
  | .or rs rt rd shamt => notZeroWord t.or rs rt rd shamt
  | .slt rs rt rd shamt => notZeroWord t.slt rs rt rd shamt
  | .beq .. | .bne .. | .addiu .. | .andi .. | .ori .. | .lui .. | .lw .. | .sw .. => true
  | .j .. | .jal .. => true

end Sys2Proof
end

