-- ==== Sys2Proof/Decode.lean ====
section
/-! DEFINITION. The instruction encoding (30_encoding.md): the fields of a word, the opcode table's default and its
readings, the decoder and, after it, the encoder. -/

namespace Sys2Proof

/-! ### Fields (R49, R51, R52, R53) -/

/-- Bits 31..26 (R49). -/
def opcodeField (w : Word) : BitVec 6 := w.extractLsb' 26 6
/-- Bits 25..21 (R51, R52). -/
def rsField (w : Word) : Reg := (w.extractLsb' 21 5).toFin
/-- Bits 20..16 (R51, R52). -/
def rtField (w : Word) : Reg := (w.extractLsb' 16 5).toFin
/-- Bits 15..11 (R51). -/
def rdField (w : Word) : Reg := (w.extractLsb' 11 5).toFin
/-- Bits 10..6 (R51). -/
def shamtField (w : Word) : BitVec 5 := w.extractLsb' 6 5
/-- Bits 5..0 (R51). -/
def functField (w : Word) : BitVec 6 := w.extractLsb' 0 6
/-- Bits 15..0 (R52). -/
def immField (w : Word) : BitVec 16 := w.extractLsb' 0 16
/-- Bits 25..0 (R53). -/
def targetField (w : Word) : BitVec 26 := w.extractLsb' 0 26

/-! ### `OPCODE_TABLE` (R8, R55) -/

/-- The opcode of every R-format word: the document's own number, and no part of the table (R50, R51). -/
def rOpcode : BitVec 6 := 0x00#6

/-- The default of `OPCODE_TABLE` (R8, R55).  PRESUMED (log entry 3): the document gives no numbers; these are the MIPS I
values, the spec's default (decision D1).  No other definition holds a number of the table. -/
def OpcodeTable.mips : OpcodeTable where
  sll := 0x00#6
  srl := 0x02#6
  jr := 0x08#6
  addu := 0x21#6
  subu := 0x23#6
  and := 0x24#6
  or := 0x25#6
  slt := 0x2A#6
  j := 0x02#6
  jal := 0x03#6
  beq := 0x04#6
  bne := 0x05#6
  addiu := 0x09#6
  andi := 0x0C#6
  ori := 0x0D#6
  lui := 0x0F#6
  lw := 0x23#6
  sw := 0x2B#6

/-- The funct that selects each R-format operation (R54, R55). -/
def OpcodeTable.rFunct (t : OpcodeTable) : ROp → BitVec 6
  | .sll => t.sll
  | .srl => t.srl
  | .jr => t.jr
  | .addu => t.addu
  | .subu => t.subu
  | .and => t.and
  | .or => t.or
  | .slt => t.slt

/-- The opcode that selects each I-format operation (R54, R55). -/
def OpcodeTable.iOpcode (t : OpcodeTable) : IOp → BitVec 6
  | .beq => t.beq
  | .bne => t.bne
  | .addiu => t.addiu
  | .andi => t.andi
  | .ori => t.ori
  | .lui => t.lui
  | .lw => t.lw
  | .sw => t.sw

/-- The opcode that selects each J-format operation (R54, R55). -/
def OpcodeTable.jOpcode (t : OpcodeTable) : JOp → BitVec 6
  | .j => t.j
  | .jal => t.jal

/-- All R-format operations. -/
def allROps : List ROp := [.sll, .srl, .jr, .addu, .subu, .and, .or, .slt]
/-- All I-format operations. -/
def allIOps : List IOp := [.beq, .bne, .addiu, .andi, .ori, .lui, .lw, .sw]
/-- All J-format operations. -/
def allJOps : List JOp := [.j, .jal]

/-- `R_FUNCTS` (R50, R55). -/
def OpcodeTable.rFuncts (t : OpcodeTable) : List (BitVec 6) := allROps.map t.rFunct
/-- `J_OPCODES` (R50, R55). -/
def OpcodeTable.jOpcodes (t : OpcodeTable) : List (BitVec 6) := allJOps.map t.jOpcode
/-- `I_OPCODES` (R50, R55). -/
def OpcodeTable.iOpcodes (t : OpcodeTable) : List (BitVec 6) := allIOps.map t.iOpcode

/-- DEDUCED (log entry 21): a table whose numbers select one operation each (R8).  The functs differ from one another, and
the opcodes differ from one another and from the R format's. -/
def OpcodeTable.wf (t : OpcodeTable) : Bool :=
  decide t.rFuncts.Nodup && decide (rOpcode :: (t.jOpcodes ++ t.iOpcodes)).Nodup

/-- `OpOfFunct` (R70): the table read backwards; `none` outside `R_FUNCTS`. -/
def opOfFunct (t : OpcodeTable) (f : BitVec 6) : Option ROp := allROps.find? (fun op => t.rFunct op == f)
/-- `OpOfOpcode` (R70) for the I format; `none` outside `I_OPCODES`. -/
def iOpOfOpcode (t : OpcodeTable) (o : BitVec 6) : Option IOp := allIOps.find? (fun op => t.iOpcode op == o)
/-- `OpOfOpcode` (R70) for the J format; `none` outside `J_OPCODES`. -/
def jOpOfOpcode (t : OpcodeTable) (o : BitVec 6) : Option JOp := allJOps.find? (fun op => t.jOpcode op == o)

/-! ### The decoder -/

/-- The R-format instruction with operation `op`. -/
def Instr.ofR (op : ROp) (rs rt rd : Reg) (shamt : BitVec 5) : Instr :=
  match op with
  | .sll => .sll rs rt rd shamt
  | .srl => .srl rs rt rd shamt
  | .jr => .jr rs rt rd shamt
  | .addu => .addu rs rt rd shamt
  | .subu => .subu rs rt rd shamt
  | .and => .and rs rt rd shamt
  | .or => .or rs rt rd shamt
  | .slt => .slt rs rt rd shamt

/-- The I-format instruction with operation `op`. -/
def Instr.ofI (op : IOp) (rs rt : Reg) (imm : BitVec 16) : Instr :=
  match op with
  | .beq => .beq rs rt imm
  | .bne => .bne rs rt imm
  | .addiu => .addiu rs rt imm
  | .andi => .andi rs rt imm
  | .ori => .ori rs rt imm
  | .lui => .lui rs rt imm
  | .lw => .lw rs rt imm
  | .sw => .sw rs rt imm

/-- The J-format instruction with operation `op`. -/
def Instr.ofJ (op : JOp) (target : BitVec 26) : Instr :=
  match op with
  | .j => .j target
  | .jal => .jal target

/-- The R-format part of the decoder: the funct decides, and an unsupported one is fatal (R50, C4; decision
D10, UNVERIFIED, log entry 9). -/
def decodeR (t : OpcodeTable) (w : Word) : Except DecodeFailure Instr :=
  match opOfFunct t (functField w) with
  | some op => .ok (Instr.ofR op (rsField w) (rtField w) (rdField w) (shamtField w))
  | none => .error .unknownFunct

/-- The J- and I-format part of the decoder, in the order of R50's tests. -/
def decodeJI (t : OpcodeTable) (w : Word) : Except DecodeFailure Instr :=
  match jOpOfOpcode t (opcodeField w) with
  | some op => .ok (Instr.ofJ op (targetField w))
  | none =>
    match iOpOfOpcode t (opcodeField w) with
    | some op => .ok (Instr.ofI op (rsField w) (rtField w) (immField w))
    | none => .error .unknownOpcode

/-- The decoder, with `OPCODE_TABLE` as its parameter (R8): total on every word, with R50's tests in R50's order (the zero word first). -/
def decode (t : OpcodeTable) (w : Word) : Except DecodeFailure Instr :=
  if w = 0#32 then .error .zeroWord
  else if opcodeField w = rOpcode then decodeR t w
  else decodeJI t w

/-! ### The encoder (R51, R52, R53, R55) -/

/-- The five bits of a register field. -/
def regBits (r : Reg) : BitVec 5 := BitVec.ofFin r

/-- An R-format word (R51). -/
def encodeR (t : OpcodeTable) (op : ROp) (rs rt rd : Reg) (shamt : BitVec 5) : Word :=
  rOpcode ++ regBits rs ++ regBits rt ++ regBits rd ++ shamt ++ t.rFunct op

/-- An I-format word (R52). -/
def encodeI (t : OpcodeTable) (op : IOp) (rs rt : Reg) (imm : BitVec 16) : Word :=
  t.iOpcode op ++ regBits rs ++ regBits rt ++ imm

/-- A J-format word (R53). -/
def encodeJ (t : OpcodeTable) (op : JOp) (target : BitVec 26) : Word :=
  t.jOpcode op ++ target

/-- The word of an instruction under the same table the decoder takes.  For an ill-formed one it is the terminator's word. -/
def encode (t : OpcodeTable) : Instr → Word
  | .sll rs rt rd shamt => encodeR t .sll rs rt rd shamt
  | .srl rs rt rd shamt => encodeR t .srl rs rt rd shamt
  | .jr rs rt rd shamt => encodeR t .jr rs rt rd shamt
  | .addu rs rt rd shamt => encodeR t .addu rs rt rd shamt
  | .subu rs rt rd shamt => encodeR t .subu rs rt rd shamt
  | .and rs rt rd shamt => encodeR t .and rs rt rd shamt
  | .or rs rt rd shamt => encodeR t .or rs rt rd shamt
  | .slt rs rt rd shamt => encodeR t .slt rs rt rd shamt
  | .beq rs rt imm => encodeI t .beq rs rt imm
  | .bne rs rt imm => encodeI t .bne rs rt imm
  | .addiu rs rt imm => encodeI t .addiu rs rt imm
  | .andi rs rt imm => encodeI t .andi rs rt imm
  | .ori rs rt imm => encodeI t .ori rs rt imm
  | .lui rs rt imm => encodeI t .lui rs rt imm
  | .lw rs rt imm => encodeI t .lw rs rt imm
  | .sw rs rt imm => encodeI t .sw rs rt imm
  | .j target => encodeJ t .j target
  | .jal target => encodeJ t .jal target

/-! ### The host's reading of an opcode-table row -/

/-- The word whose low `nbits` bits are those of `w`; the bits above are 0.  An instruction is one word (R48), so bit
`k` of the table's numbering is bit `k` of the word. -/
def tableWord (nbits w : Nat) : Word := BitVec.ofNat 32 (w % 2 ^ nbits)

/-- The instruction the decoder reads, with the default table, from an instruction whose bits are `w`; `none` where it refuses. -/
def decodeTableWord (nbits w : Nat) : Option Instr := (decode OpcodeTable.mips (tableWord nbits w)).toOption

end Sys2Proof
end

