-- ==== Sys2Proof/Machine/Layout.lean ====
section
/-! DEFINITION. What the parameters fix: the memory range, the valid addresses, and the register values at reset; and the
parameters of `State.reset` (20_memory.md R31 to R33, R37, R38; 10_state.md R29). -/

namespace Sys2Proof

/-- PRESUMED (log entries 2 and 3): the test configuration of R7 and 95_test_vectors.md, with the default opcode table of
R55.  Only `State.reset` uses it. -/
def Config.test : Config :=
  { base := 0x00400000#32, instrWords := 1024, dataWords := 3072, opcodes := OpcodeTable.mips }

end Sys2Proof

namespace Sys2Proof.Machine

/-- The number of words of memory, `INSTR_WORDS + DATA_WORDS` (R31). -/
def memWords (c : Config) : Nat := c.instrWords + c.dataWords

/-- The first byte address past memory, `BASE + 4*(INSTR_WORDS + DATA_WORDS)` (R32). -/
def memEnd (c : Config) : Nat := c.base.toNat + 4 * memWords c

/-- The byte address of word `k` of memory (R31). -/
def wordAddr (c : Config) (k : Nat) : Nat := c.base.toNat + 4 * k

/-- The index of the word at a byte address, `(addr - BASE) / 4` (R33). -/
def wordIndex (c : Config) (a : Word) : Nat := (a.toNat - c.base.toNat) / 4

/-- `valid(addr)` of R33: word-aligned (R37) and inside the memory range (R38), comparing unsigned values.  The access
kind does not matter (R35, R41). -/
def validAddr (c : Config) (a : Word) : Bool :=
  a.toNat % 4 == 0 && decide (c.base.toNat ≤ a.toNat) && decide (a.toNat < memEnd c)

/-- UNVERIFIED (log entry 14): the reset value of register 29, "the top of the full memory image" (R29), read as the first
address past memory (decision D4). -/
def spReset (c : Config) : Word := BitVec.ofNat 32 (memEnd c)

/-- The registers at reset (R29, R113): register 0 is 0 (decision D5, UNVERIFIED,
log entry 15), register 29 is the stack pointer, and every
other register `i` is `GPR_RESET(i)`. -/
def resetRegs (c : Config) (gprReset : Vector Word 32) : Vector Word 32 :=
  (gprReset.set 0 0#32).set 29 (spReset c)

/-- DESIGN CHOICE (log entry 6): the `GPR_RESET` that `State.reset` takes.  The spec leaves it a parameter (D6). -/
def gprResetChoice : Vector Word 32 := Vector.replicate 32 0#32

end Sys2Proof.Machine
end

