-- ==== Sys2Proof/Machine/Memory.lean ====
section
/-! DEFINITION. Storage as plain data: a list of (address, byte) cells in one canonical form, and the reading and
writing of bytes and words (20_memory.md R31, R33, R34, R36). -/

namespace Sys2Proof.Machine

/-- The contents of memory: cells with strictly rising addresses, none equal to what an unlisted address reads as. -/
abbrev Memory := List Host.Cell

/-- DESIGN CHOICE (log entry 5): what an unlisted byte reads as.  Every image `MEM_INIT` (R47) has a list, so a
statement over all memories is a statement over all images; only `State.reset` itself lists nothing. -/
def unlistedByte : Byte := 0#8

/-- The canonical form from address `lo` on. -/
def Memory.canonicalFrom : Nat → Memory → Bool
  | _, [] => true
  | lo, (k, v) :: rest => decide (lo ≤ k) && v != unlistedByte && Memory.canonicalFrom (k + 1) rest

/-- The canonical form: addresses strictly rising, no cell equal to an unlisted one. -/
def Memory.wf (m : Memory) : Bool := Memory.canonicalFrom 0 m

/-- Every listed address lies in `[lo, hi)`. -/
def Memory.inside (lo hi : Nat) (m : Memory) : Bool := m.all (fun c => decide (lo ≤ c.1) && decide (c.1 < hi))

/-- The byte at an address. -/
def Memory.readByte : Memory → Nat → Byte
  | [], _ => unlistedByte
  | (k, v) :: rest, a => if a = k then v else Memory.readByte rest a

/-- Store a byte, keeping the canonical form: a cell that would equal an unlisted one is removed. -/
def Memory.writeByte : Memory → Nat → Byte → Memory
  | [], a, b => if b = unlistedByte then [] else [(a, b)]
  | (k, v) :: rest, a, b =>
    if a < k then (if b = unlistedByte then (k, v) :: rest else (a, b) :: (k, v) :: rest)
    else if a = k then (if b = unlistedByte then rest else (a, b) :: rest)
    else (k, v) :: Memory.writeByte rest a b

/-- DESIGN CHOICE (log entry 4): byte `k` of a word, counted from its least significant byte, stands at the word's
address plus `k`.  No access of the CORE can observe this (R36). -/
def byteOfWord (v : Word) (k : Nat) : Byte := v.extractLsb' (8 * k) 8

/-- The word at byte address `a` (R33, for an address already found valid). -/
def Memory.readWord (m : Memory) (a : Nat) : Word :=
  m.readByte (a + 3) ++ m.readByte (a + 2) ++ m.readByte (a + 1) ++ m.readByte a

/-- Replace the whole word at byte address `a` (R34, for an address already found valid). -/
def Memory.writeWord (m : Memory) (a : Nat) (v : Word) : Memory :=
  (((m.writeByte a (byteOfWord v 0)).writeByte (a + 1) (byteOfWord v 1)).writeByte (a + 2)
    (byteOfWord v 2)).writeByte (a + 3) (byteOfWord v 3)

/-- Place a sequence of words from byte address `a` upwards (R47: word `i` at `a + 4*i`). -/
def Memory.placeWords (m : Memory) (a : Nat) : List Word → Memory
  | [] => m
  | v :: rest => Memory.placeWords (m.writeWord a v) (a + 4) rest

end Sys2Proof.Machine
end

