-- ==== Sys2Proof/Machine/State.lean ====
section
/-! DEFINITION. The architectural state (10_state.md R13), the stop conditions (60_exceptions.md R99, R101), the
outcomes' reason types, and the state at reset (70_reset_and_hazards.md R113). -/

namespace Sys2Proof.Machine

/-- The three kinds of memory access (R33, R74, R99). -/
inductive AccessKind where
  | fetch | load | store
deriving DecidableEq, Repr

/-- The stop conditions of R99 with what each records beside the `pc` (R101). -/
inductive StopCause where
  /-- Codes 0, 1 and 2: the fetched word does not decode; the record holds the word. -/
  | decodeFailure (kind : DecodeFailure) (word : Word)
  /-- Codes 3, 4 and 5: an access to a misaligned or out-of-range address; the record holds kind and address. -/
  | undefinedAccess (kind : AccessKind) (addr : Word)
deriving DecidableEq, Repr

/-- A stop (R101): its cause and the `pc` of the step that raised it. -/
structure Stop where
  pc : Word
  cause : StopCause
deriving DecidableEq, Repr

/-- The run status (R20). -/
inductive Status where
  | running
  | stopped (stop : Stop)
deriving DecidableEq, Repr

/-- The whole state of the machine (R13): nothing else survives a step (R24 to R27). -/
structure State where
  /-- The parameters of R7 and R8; the MODEL's own field, which no step changes (log entry 1). -/
  config : Config
  /-- The general registers `x[0..31]` (R14); none is hardwired (R15). -/
  regs : Vector Word 32
  /-- The program counter: the address of the instruction being executed (R21). -/
  pc : Word
  /-- The memory (R31). -/
  mem : Memory
  /-- The change indicator `lastReg` (R19). -/
  lastReg : Option Reg
  /-- The change indicator `lastMem` (R19). -/
  lastMem : Option Word
  /-- The run status (R20). -/
  status : Status
deriving DecidableEq, Repr

/-- Why a step request gives no next state. -/
inductive Fault where
  /-- Raised by `step` alone, and only when the status is already `Stopped(stop)`: the CORE takes no further step and
  reports the same stop again (R20, decision D13; log entry 7).  Safe: the state stays as the stop left it, and the hardware
  of the spec takes no step either. -/
  | stopped (stop : Stop)
deriving DecidableEq, Repr

/-- Why an instruction has no meaning. -/
inductive Refusal where
  /-- Raised by an arm of `exec` whose instruction has no meaning yet; no arm raises it.  Safe: the machine stops. -/
  | notModelled (mnemonic : String)
deriving DecidableEq, Repr

/-- `Reset(BASE, INSTR_WORDS, DATA_WORDS, GPR_RESET, MEM_INIT)` of R113.  `MEM_INIT` is given as its words from `BASE`
upwards; words beyond the memory are no part of it, and words not given read as unlisted ones do. -/
def State.resetWith (c : Config) (gprReset : Vector Word 32) (memInit : List Word) : State where
  config := c
  regs := resetRegs c gprReset
  pc := c.base
  mem := Memory.placeWords [] c.base.toNat (memInit.take (memWords c))
  lastReg := none
  lastMem := none
  status := .running

/-- The machine right after reset, in the test configuration, with `GPR_RESET` zero and nothing listed in memory (log
entries 2, 5 and 6). -/
def State.reset : State := State.resetWith Config.test gprResetChoice []

end Sys2Proof.Machine
end

