-- ==== Sys2Proof/Machine/Ops.lean ====
section
/-! DEFINITION. The shared operations: register and memory accesses, the commit of a completed step, and the stop. -/

namespace Sys2Proof.Machine

/-- Read a general register (R10, R71). -/
def State.readReg (s : State) (r : Reg) : Word := s.regs[r.val]

/-- Write a general register, index 0 like any other (R15, R71). -/
def State.writeReg (s : State) (r : Reg) (v : Word) : State := { s with regs := s.regs.set r.val v }

/-- `MemRead(addr, 4)` (R33): the word at a valid address, `none` where the access raises `UndefinedAccess`. -/
def State.memRead (s : State) (a : Word) : Option Word :=
  if validAddr s.config a then some (s.mem.readWord a.toNat) else none

/-- Word `k` of the memory array, at byte address `BASE + 4*k` (R31). -/
def State.wordAt (s : State) (k : Nat) : Word := s.mem.readWord (wordAddr s.config k)

/-- The sequential next address, `pc + 4` modulo 2^32 (R21, R23). -/
def State.nextPc (s : State) : Word := s.pc + instrBytes

/-- The commit of a completed step (R67, R76): at most one register write, at most one memory write, the new `pc`, and
the indicators that name the locations written, whether or not a value changed (R19; decision D12, UNVERIFIED, log entry
13), all at once. -/
def State.commit (s : State) (reg : Option (Reg × Word)) (store : Option (Word × Word)) (npc : Word) : State where
  config := s.config
  regs := match reg with
    | some (r, v) => s.regs.set r.val v
    | none => s.regs
  pc := npc
  mem := match store with
    | some (a, v) => s.mem.writeWord a.toNat v
    | none => s.mem
  lastReg := reg.map Prod.fst
  lastMem := store.map Prod.fst
  status := s.status

/-- What a stop does (R100, R101): the step commits nothing, the indicators become `none`, and the status records the
stop with the `pc` of the step.  This is the CORE's only exceptional event; there is no trap entry (R98, R104) and no
return from one (R105): only a reset leaves a stop, and a reset is `State.resetWith`.  UNVERIFIED (log entries 12 and 16):
that an undefined access stops at all is decision D8, and that the `pc` stays is decision D19. -/
def State.stopWith (s : State) (cause : StopCause) : State :=
  { s with lastReg := none, lastMem := none, status := .stopped { pc := s.pc, cause := cause } }

/-- The end of an instruction that writes one register and goes on at `pc + 4` (R75, R76). -/
def State.finishReg (s : State) (r : Reg) (v : Word) : State := s.commit (some (r, v)) none s.nextPc

/-- The end of an instruction that writes nothing and goes on at `npc` (R73, R76). -/
def State.finishJump (s : State) (npc : Word) : State := s.commit none none npc

/-- The number of a stop (R99; the numbers are decision D11, UNVERIFIED, log entry 18). -/
def Stop.code (st : Stop) : Nat :=
  match st.cause with
  | .decodeFailure .zeroWord _ => 0
  | .decodeFailure .unknownOpcode _ => 1
  | .decodeFailure .unknownFunct _ => 2
  | .undefinedAccess .fetch _ => 3
  | .undefinedAccess .load _ => 4
  | .undefinedAccess .store _ => 5

/-- The class of a stop (R99): the zero word is a halt, the normal end of a run; every other stop is a fault (R115). -/
def Stop.isHalt (st : Stop) : Bool :=
  match st.cause with
  | .decodeFailure .zeroWord _ => true
  | .decodeFailure .unknownOpcode _ | .decodeFailure .unknownFunct _ => false
  | .undefinedAccess .fetch _ | .undefinedAccess .load _ | .undefinedAccess .store _ => false

end Sys2Proof.Machine
end

