-- ==== Sys2Proof/Machine/Operands.lean ====
section
/-! DEFINITION. The operand forms (30_encoding.md R56 to R59; 43_control_transfer.md R95).  A register operand is
`State.readReg`; the memory operand form is base plus displacement. -/

namespace Sys2Proof.Machine

/-- `simm`, the sign-extended immediate of `addiu`, `beq`, `bne`, `lw`, `sw` and `lui` (R56). -/
def simm (imm : BitVec 16) : Word := imm.signExtend 32

/-- `zimm`, the zero-extended immediate of `andi` and `ori` (R57; conflict C1, DEDUCED, log entry 17). -/
def zimm (imm : BitVec 16) : Word := imm.setWidth 32

/-- The branch displacement in bytes, `simm << 2` (R58). -/
def branchOffset (imm : BitVec 16) : Word := simm imm <<< 2

/-- The `lui` value, `simm << 16` (R58, R89). -/
def luiValue (imm : BitVec 16) : Word := simm imm <<< 16

/-- The effective address of a load or store, `x[rs] + simm` modulo 2^32 (R59, R90). -/
def effectiveAddress (base : Word) (imm : BitVec 16) : Word := base + simm imm

/-- The shift amount, 0 to 31, unsigned (R51). -/
def shiftAmount (shamt : BitVec 5) : Nat := shamt.toNat

/-- The target of `j` and `jal` (R95, C2).  PRESUMED (log entry 11): the region is that of `pc + 4` (decision D9). -/
def jumpTarget (pc : Word) (target : BitVec 26) : Word :=
  ((pc + instrBytes) &&& 0xF0000000#32) ||| (target.setWidth 32 <<< 2)

end Sys2Proof.Machine
end

