-- ==== Sys2Proof/Machine/Flags.lean ====
section
/-! DEFINITION. The CORE has no flags or condition codes (10_state.md R24): a comparison gives a register value or
decides a branch inside its instruction.  Those comparisons stand here. -/

namespace Sys2Proof.Machine

/-- `signed(a) <s signed(b)` as a word, 1 or 0 (R83, R9). -/
def setLessThan (a b : Word) : Word := if a.toInt < b.toInt then 1#32 else 0#32

/-- The delta a branch adds to `pc + 4`: the displacement when its condition holds, else 0 (R93, R94). -/
def branchDelta (taken : Bool) (imm : BitVec 16) : Word := if taken then branchOffset imm else 0#32

/-- The next `pc` of a branch (R73, R93, R94). -/
def State.branchTarget (s : State) (taken : Bool) (imm : BitVec 16) : Word := s.nextPc + branchDelta taken imm

end Sys2Proof.Machine
end

