-- ==== Sys2Proof/Machine/Alu.lean ====
section
/-! DEFINITION. The arithmetic, logic, shift and load-upper instructions (41_alu_ops.md).  Each reads the registers of
the state at the start of the step (R60, R119), writes one register, and goes on at `pc + 4`; none stops. -/

namespace Sys2Proof.Machine

/-- `addu $rd, $rs, $rt` (R79). -/
def execAddu (rs rt rd : Reg) (s : State) : Host.Outcome State Fault Refusal :=
  .next (s.finishReg rd (s.readReg rs + s.readReg rt))

/-- `subu $rd, $rs, $rt` (R80). -/
def execSubu (rs rt rd : Reg) (s : State) : Host.Outcome State Fault Refusal :=
  .next (s.finishReg rd (s.readReg rs - s.readReg rt))

/-- `and $rd, $rs, $rt` (R81). -/
def execAnd (rs rt rd : Reg) (s : State) : Host.Outcome State Fault Refusal :=
  .next (s.finishReg rd (s.readReg rs &&& s.readReg rt))

/-- `or $rd, $rs, $rt` (R82). -/
def execOr (rs rt rd : Reg) (s : State) : Host.Outcome State Fault Refusal :=
  .next (s.finishReg rd (s.readReg rs ||| s.readReg rt))

/-- `slt $rd, $rs, $rt` (R83). -/
def execSlt (rs rt rd : Reg) (s : State) : Host.Outcome State Fault Refusal :=
  .next (s.finishReg rd (setLessThan (s.readReg rs) (s.readReg rt)))

/-- `sll $rd, $rt, shamt` (R84). -/
def execSll (rt rd : Reg) (shamt : BitVec 5) (s : State) : Host.Outcome State Fault Refusal :=
  .next (s.finishReg rd (s.readReg rt <<< shiftAmount shamt))

/-- `srl $rd, $rt, shamt` (R85). -/
def execSrl (rt rd : Reg) (shamt : BitVec 5) (s : State) : Host.Outcome State Fault Refusal :=
  .next (s.finishReg rd (s.readReg rt >>> shiftAmount shamt))

/-- `addiu $rt, $rs, imm` (R86). -/
def execAddiu (rs rt : Reg) (imm : BitVec 16) (s : State) : Host.Outcome State Fault Refusal :=
  .next (s.finishReg rt (s.readReg rs + simm imm))

/-- `andi $rt, $rs, imm` (R87). -/
def execAndi (rs rt : Reg) (imm : BitVec 16) (s : State) : Host.Outcome State Fault Refusal :=
  .next (s.finishReg rt (s.readReg rs &&& zimm imm))

/-- `ori $rt, $rs, imm` (R88). -/
def execOri (rs rt : Reg) (imm : BitVec 16) (s : State) : Host.Outcome State Fault Refusal :=
  .next (s.finishReg rt (s.readReg rs ||| zimm imm))

/-- `lui $rt, imm` (R89). -/
def execLui (rt : Reg) (imm : BitVec 16) (s : State) : Host.Outcome State Fault Refusal :=
  .next (s.finishReg rt (luiValue imm))

end Sys2Proof.Machine
end

