-- ==== Sys2Proof/Machine/Control.lean ====
section
/-! DEFINITION. The control-transfer instructions (43_control_transfer.md).  There is no delay slot (R92), and no target
is checked here: a bad one stops the next step's fetch (R22, R122). -/

namespace Sys2Proof.Machine

/-- `beq $rs, $rt, off` (R93). -/
def execBeq (rs rt : Reg) (imm : BitVec 16) (s : State) : Host.Outcome State Fault Refusal :=
  .next (s.finishJump (s.branchTarget (s.readReg rs == s.readReg rt) imm))

/-- `bne $rs, $rt, off` (R94). -/
def execBne (rs rt : Reg) (imm : BitVec 16) (s : State) : Host.Outcome State Fault Refusal :=
  .next (s.finishJump (s.branchTarget (s.readReg rs != s.readReg rt) imm))

/-- `j addr` (R95). -/
def execJ (target : BitVec 26) (s : State) : Host.Outcome State Fault Refusal :=
  .next (s.finishJump (jumpTarget s.pc target))

/-- The link register, index 31 (R16). -/
def linkReg : Reg := 31

/-- `jal addr` (R96): the return address `pc + 4` goes to register 31. -/
def execJal (target : BitVec 26) (s : State) : Host.Outcome State Fault Refusal :=
  .next (s.commit (some (linkReg, s.nextPc)) none (jumpTarget s.pc target))

/-- `jr $rs` (R97). -/
def execJr (rs : Reg) (s : State) : Host.Outcome State Fault Refusal :=
  .next (s.finishJump (s.readReg rs))

end Sys2Proof.Machine
end

