-- ==== Sys2Proof/Machine/LoadStore.lean ====
section
/-! DEFINITION. The load and store instructions (42_load_store.md).  A misaligned or out-of-range effective address
takes the stop `UndefinedAccess`, and then nothing of the step commits (R37, R38, R100). -/

namespace Sys2Proof.Machine

/-- `lw $rt, disp($rs)` (R90). -/
def execLw (rs rt : Reg) (imm : BitVec 16) (s : State) : Host.Outcome State Fault Refusal :=
  let ea := effectiveAddress (s.readReg rs) imm
  match s.memRead ea with
  | some v => .next (s.finishReg rt v)
  | none => .next (s.stopWith (.undefinedAccess .load ea))

/-- `sw $rt, disp($rs)` (R91). -/
def execSw (rs rt : Reg) (imm : BitVec 16) (s : State) : Host.Outcome State Fault Refusal :=
  let ea := effectiveAddress (s.readReg rs) imm
  if validAddr s.config ea then .next (s.commit none (some (ea, s.readReg rt)) s.nextPc)
  else .next (s.stopWith (.undefinedAccess .store ea))

end Sys2Proof.Machine
end

