-- ==== Sys2Proof/Machine/Fetch.lean ====
section
/-! DEFINITION. What a step does before its instruction runs: the run status, fetch and decode, in the order of
60_exceptions.md R102. -/

namespace Sys2Proof.Machine

/-- Fetch (R69): the word at `pc`, or the stop of an invalid `pc`. -/
def fetchWord (s : State) : Except StopCause Word :=
  match s.memRead s.pc with
  | some w => .ok w
  | none => .error (.undefinedAccess .fetch s.pc)

/-- Fetch, then decode with the state's opcode table (R8, R102): the instruction at `pc`, or the stop that fetch or decode raises. -/
def fetchInstr (s : State) : Except StopCause Instr :=
  match fetchWord s with
  | .error c => .error c
  | .ok w =>
    match decode s.config.opcodes w with
    | .error k => .error (.decodeFailure k w)
    | .ok i => .ok i

/-- The instruction a step request runs, or the outcome that ends the request before any instruction runs: a stopped
CORE takes no step and reports its stop again (R20), and a failing fetch or decode stops it (R100). -/
def issue (s : State) : Except (Host.Outcome State Fault Refusal) Instr :=
  match s.status with
  | .stopped st => .error (.fault (.stopped st))
  | .running =>
    match fetchInstr s with
    | .error c => .error (.next (s.stopWith c))
    | .ok i => .ok i

/-- The state with `w` placed where the next fetch reads, as the external loader would place it (R47).  The fetch needs
the status `Running`, so that is set too. -/
def State.placeAtPc (s : State) (w : Word) : State :=
  { s with mem := s.mem.writeWord s.pc.toNat w, status := .running }

end Sys2Proof.Machine
end

