-- ==== Sys2Proof/Machine/Step.lean ====
section
/-! DEFINITION. One step request (40_step_and_units.md R66, R76, R77). -/

namespace Sys2Proof.Machine

/-- One step: the instruction at `pc` executed to completion, or a stop. -/
def step (s : State) : Host.Outcome State Fault Refusal :=
  match issue s with
  | .ok i => exec i s
  | .error o => o

/-- `s` with the instruction whose bits are `w` stored where `step` fetches next (log entry 8).  For a state whose `pc`
is not a valid address no word can be fetched, and the next step stops at fetch whatever memory holds. -/
def State.withFetchWord (s : State) (nbits w : Nat) : State := s.placeAtPc (tableWord nbits w)

end Sys2Proof.Machine
end

