-- ==== Sys2Proof/Machine/Datapath.lean ====
section
/-! DEFINITION. The six units and the wiring of one step as 40_step_and_units.md gives them (R69 to R76; R68's single-cycle
realisation is this step taken once per clock).  The machine's `step` is written per instruction; this file is the same
step written per unit, and an obligation says that the two agree on every state (log entry 20). -/

namespace Sys2Proof.Machine

/-- The decoded instruction with its register snapshot (R27, R60, R70): one constructor per shape, holding the outputs
the shape defines.  It exists only inside one step. -/
inductive Decoded where
  | r (op : ROp) (rs rt rd : Reg) (shamt : BitVec 5) (a b : Word)
  | i (op : IOp) (rs rt : Reg) (imm16 : BitVec 16) (simm zimm a b : Word)
  | j (op : JOp) (target : BitVec 26)
deriving DecidableEq, Repr

/-- `Classify` (R50): these tests in this order. -/
def classify (t : OpcodeTable) (w : Word) : Except DecodeFailure Shape :=
  if w = 0#32 then .error .zeroWord
  else if opcodeField w = rOpcode then
    if t.rFuncts.contains (functField w) then .ok .r else .error .unknownFunct
  else if t.jOpcodes.contains (opcodeField w) then .ok .j
  else if t.iOpcodes.contains (opcodeField w) then .ok .i
  else .error .unknownOpcode

/-- The `decoder` unit (R70).  Its lookups cannot miss once `classify` has given a shape; the failures named there for a
miss are those `classify` would have given. -/
def decoderUnit (s : State) (w : Word) : Except DecodeFailure Decoded :=
  match classify s.config.opcodes w with
  | .error k => .error k
  | .ok .r =>
    match opOfFunct s.config.opcodes (functField w) with
    | some op =>
      .ok (.r op (rsField w) (rtField w) (rdField w) (shamtField w) (s.readReg (rsField w)) (s.readReg (rtField w)))
    | none => .error .unknownFunct
  | .ok .j =>
    match jOpOfOpcode s.config.opcodes (opcodeField w) with
    | some op => .ok (.j op (targetField w))
    | none => .error .unknownOpcode
  | .ok .i =>
    match iOpOfOpcode s.config.opcodes (opcodeField w) with
    | some op =>
      .ok (.i op (rsField w) (rtField w) (immField w) (simm (immField w)) (zimm (immField w))
        (s.readReg (rsField w)) (s.readReg (rtField w)))
    | none => .error .unknownOpcode

/-- The `alu` unit (R72): the result of each operation from the snapshot and `pc`; it never stops.  For `j` the result is
0 and nothing reads it (R95; decision D22, UNVERIFIED, log entry 20). -/
def aluUnit (d : Decoded) (pc : Word) : Word :=
  match d with
  | .r op _ _ _ shamt a b =>
    match op with
    | .sll => b <<< shiftAmount shamt
    | .srl => b >>> shiftAmount shamt
    | .jr => a
    | .addu => a + b
    | .subu => a - b
    | .and => a &&& b
    | .or => a ||| b
    | .slt => setLessThan a b
  | .i op _ _ _ simm zimm a b =>
    match op with
    | .beq => if a = b then simm <<< 2 else 0#32
    | .bne => if a ≠ b then simm <<< 2 else 0#32
    | .addiu => a + simm
    | .andi => a &&& zimm
    | .ori => a ||| zimm
    | .lui => simm <<< 16
    | .lw => a + simm
    | .sw => a + simm
  | .j op _ =>
    match op with
    | .j => 0#32
    | .jal => pc + 4#32

/-- The `pc_updater` unit (R73). -/
def pcUpdate (d : Decoded) (pc result : Word) : Word :=
  let seq := pc + 4#32
  match d with
  | .r .jr .. => result
  | .i .beq .. | .i .bne .. => seq + result
  | .j _ target => (seq &&& 0xF0000000#32) ||| (target.setWidth 32 <<< 2)
  | .r .sll .. | .r .srl .. | .r .addu .. | .r .subu .. | .r .and .. | .r .or .. | .r .slt .. => seq
  | .i .addiu .. | .i .andi .. | .i .ori .. | .i .lui .. | .i .lw .. | .i .sw .. => seq

/-- The outputs of the `load_store_unit` (R74): the loaded word, where there is one; the write enable; and the address
whose word changes. -/
structure MemOut where
  ldata : Option Word
  memWe : Bool
  memChanged : Option Word
deriving DecidableEq, Repr

/-- The `load_store_unit` (R74): a no-op for every instruction but `lw` and `sw`. -/
def memAccess (s : State) (d : Decoded) (addr : Word) : Except StopCause MemOut :=
  match d with
  | .i .lw .. =>
    match s.memRead addr with
    | some v => .ok { ldata := some v, memWe := false, memChanged := none }
    | none => .error (.undefinedAccess .load addr)
  | .i .sw .. =>
    if validAddr s.config addr then .ok { ldata := none, memWe := true, memChanged := some addr }
    else .error (.undefinedAccess .store addr)
  | .r .. | .j .. | .i .beq .. | .i .bne .. | .i .addiu .. | .i .andi .. | .i .ori .. | .i .lui .. =>
    .ok { ldata := none, memWe := false, memChanged := none }

/-- Writeback, the register file's write control (R75): the register written and its value, or nothing. -/
def writeback (d : Decoded) (result : Word) (ldata : Option Word) : Option (Reg × Word) :=
  match d with
  | .r .jr .. => none
  | .r .sll _ _ rd .. | .r .srl _ _ rd .. | .r .addu _ _ rd .. | .r .subu _ _ rd .. | .r .and _ _ rd ..
  | .r .or _ _ rd .. | .r .slt _ _ rd .. => some (rd, result)
  | .i .addiu _ rt .. | .i .andi _ rt .. | .i .ori _ rt .. | .i .lui _ rt .. => some (rt, result)
  | .i .lw _ rt .. => ldata.map (fun v => (rt, v))
  | .i .beq .. | .i .bne .. | .i .sw .. => none
  | .j .jal _ => some (31, result)
  | .j .j _ => none

/-- The value a store writes, the snapshot `b` (R74, R91). -/
def storeData (d : Decoded) : Word :=
  match d with
  | .r _ _ _ _ _ _ b => b
  | .i _ _ _ _ _ _ _ b => b
  | .j _ _ => 0#32

/-- The last stages of a step, from the decoded instruction on (R76): execute, PC update, memory access, writeback, and
the commit of everything at once. -/
def runUnits (s : State) (d : Decoded) : Except StopCause State :=
  let result := aluUnit d s.pc
  let npc := pcUpdate d s.pc result
  match memAccess s d result with
  | .error c => .error c
  | .ok m =>
    let wb := writeback d result m.ldata
    .ok { s with
      regs := match wb with
        | some (wa, wd) => s.regs.set wa.val wd
        | none => s.regs
      mem := if m.memWe then s.mem.writeWord result.toNat (storeData d) else s.mem
      pc := npc
      lastReg := wb.map Prod.fst
      lastMem := m.memChanged }

/-- The step as R76 wires it: fetch, decode, then the rest; any stop commits nothing (R100). -/
def stepUnits (s : State) : Host.Outcome State Fault Refusal :=
  match s.status with
  | .stopped st => .fault (.stopped st)
  | .running =>
    match fetchWord s with
    | .error c => .next (s.stopWith c)
    | .ok w =>
      match decoderUnit s w with
      | .error k => .next (s.stopWith (.decodeFailure k w))
      | .ok d =>
        match runUnits s d with
        | .error c => .next (s.stopWith c)
        | .ok t => .next t

end Sys2Proof.Machine
end

