-- ==== Sys2Proof/Machine/Interface.lean ====
section
/-! DEFINITION. The driver's view of the CORE: the step request (40_step_and_units.md R77), the inspection interface
(R78), and the external loader's one condition (20_memory.md R47; 70_reset_and_hazards.md R114). -/

namespace Sys2Proof.Machine

/-- What a step request returns (R77). -/
inductive StepReport where
  | completed (lastReg : Option Reg) (lastMem : Option Word)
  | stopped (stop : Stop)
deriving DecidableEq, Repr

/-- The report a state gives: its indicators while it runs, its stop after that (R77, R100). -/
def State.report (s : State) : StepReport :=
  match s.status with
  | .running => .completed s.lastReg s.lastMem
  | .stopped st => .stopped st

/-- A step request (R77): the state after it and what it returns.  A stopped CORE changes nothing and reports the same
stop (R20); no instruction is refused. -/
def requestStep (s : State) : State × StepReport :=
  match step s with
  | .next t => (t, t.report)
  | .fault (.stopped st) => (s, .stopped st)
  | .refused _ => (s, s.report)

/-- "Read word at address" (R78): no value for an invalid address (decision D21, UNVERIFIED, log
entry 19). -/
def State.inspectWord (s : State) (a : Word) : Option Word := s.memRead a
/-- "Read register by index" (R78). -/
def State.inspectReg (s : State) (r : Reg) : Word := s.readReg r
/-- "Get program counter" (R78). -/
def State.inspectPc (s : State) : Word := s.pc
/-- "Get last-changed register index (or none)" (R78). -/
def State.inspectLastReg (s : State) : Option Reg := s.lastReg
/-- "Get last-changed memory address (or none)" (R78). -/
def State.inspectLastMem (s : State) : Option Word := s.lastMem

/-- The memory image the loader makes (R47): the program's words first, then what `MEM_INIT` holds after them.  A program
of more than `INSTR_WORDS` words has no run (R114, decision D24). -/
def loadImage (c : Config) (memInit prog : List Word) : Option (List Word) :=
  if prog.length ≤ c.instrWords then some (prog ++ memInit.drop prog.length) else none

/-- Load a program, then reset (R113, R114). -/
def State.boot (c : Config) (gprReset : Vector Word 32) (memInit prog : List Word) : Option State :=
  (loadImage c memInit prog).map (State.resetWith c gprReset)

end Sys2Proof.Machine
end

