-- ==== Sys2Proof/Machine/RegisterUse.lean ====
section
/-! DEFINITION. Which registers each instruction reads and writes, and which address it accesses: the table of
10_state.md R17 and the memory rows of 40_step_and_units.md R74, written beside the meanings and not used by them, so that
statements can name them. -/

namespace Sys2Proof.Machine

/-- The registers whose values an instruction uses (R17, the column "reads" less the entries it marks unused). -/
def sources : Instr → List Reg
  | .addu rs rt _ _ | .subu rs rt _ _ | .and rs rt _ _ | .or rs rt _ _ | .slt rs rt _ _ => [rs, rt]
  | .sll _ rt _ _ | .srl _ rt _ _ => [rt]
  | .jr rs _ _ _ => [rs]
  | .addiu rs _ _ | .andi rs _ _ | .ori rs _ _ => [rs]
  | .lui .. => []
  | .lw rs _ _ => [rs]
  | .sw rs rt _ => [rs, rt]
  | .beq rs rt _ | .bne rs rt _ => [rs, rt]
  | .j .. | .jal .. => []

/-- The register an instruction writes (R17, the column "writes"). -/
def dest : Instr → Option Reg
  | .addu _ _ rd _ | .subu _ _ rd _ | .and _ _ rd _ | .or _ _ rd _ | .slt _ _ rd _ => some rd
  | .sll _ _ rd _ | .srl _ _ rd _ => some rd
  | .jr .. => none
  | .addiu _ rt _ | .andi _ rt _ | .ori _ rt _ | .lui _ rt _ | .lw _ rt _ => some rt
  | .sw .. | .beq .. | .bne .. | .j .. => none
  | .jal .. => some 31

/-- The data access of an instruction (R74): its kind and its effective address. -/
def dataAccess (s : State) : Instr → Option (AccessKind × Word)
  | .lw rs _ imm => some (.load, effectiveAddress (s.readReg rs) imm)
  | .sw rs _ imm => some (.store, effectiveAddress (s.readReg rs) imm)
  | .sll .. | .srl .. | .jr .. | .addu .. | .subu .. | .and .. | .or .. | .slt .. => none
  | .beq .. | .bne .. | .addiu .. | .andi .. | .ori .. | .lui .. | .j .. | .jal .. => none

end Sys2Proof.Machine
end

