-- ==== Sys2Proof/Safety.lean ====
section
/-! DEFINITION. What claims mean by a sound state and by a safe run. -/

namespace Sys2Proof.Machine

/-- A run has ended normally: the terminator was reached (70_reset_and_hazards.md R115). -/
def State.HaltedNormally (s : State) : Prop := ∃ st, s.status = .stopped st ∧ st.isHalt = true

/-- A run has ended in a fault stop, "a state no correct run reaches" (60_exceptions.md R99). -/
def State.Faulted (s : State) : Prop := ∃ st, s.status = .stopped st ∧ st.isHalt = false

/-- A state of a correct run. -/
def State.Safe (s : State) : Prop := ¬ s.Faulted

/-- What the record of a stop says of the state it stands in (R100, R101): the `pc` is that of the stopping step, and
the recorded word or address is the one that stopped it. -/
def StopRecorded (s : State) (st : Stop) : Prop :=
  st.pc = s.pc ∧
  match st.cause with
  | .decodeFailure k w => s.memRead s.pc = some w ∧ decode s.config.opcodes w = .error k
  | .undefinedAccess .fetch a => a = s.pc ∧ validAddr s.config a = false
  | .undefinedAccess .load a => validAddr s.config a = false ∧
      ∃ w i, s.memRead s.pc = some w ∧ decode s.config.opcodes w = .ok i ∧ dataAccess s i = some (.load, a)
  | .undefinedAccess .store a => validAddr s.config a = false ∧
      ∃ w i, s.memRead s.pc = some w ∧ decode s.config.opcodes w = .ok i ∧ dataAccess s i = some (.store, a)

/-- The invariant of the machine: it holds at reset and every step keeps it. -/
structure State.Inv (s : State) : Prop where
  /-- The parameters meet R7. -/
  config_wf : s.config.wf = true
  /-- Memory is in its canonical form. -/
  mem_wf : s.mem.wf = true
  /-- Nothing is stored outside the memory range (R32, R38). -/
  mem_inside : s.mem.inside s.config.base.toNat (memEnd s.config) = true
  /-- The address indicator names a word of memory (R19). -/
  lastMem_valid : ∀ a, s.lastMem = some a → validAddr s.config a = true
  /-- No instruction changes both a register and memory (R17, R67). -/
  one_change : s.lastReg = none ∨ s.lastMem = none
  /-- After a stop both indicators are `none` and the record is that of the stopping step (R19, R100, R101). -/
  stop_recorded : ∀ st, s.status = .stopped st → s.lastReg = none ∧ s.lastMem = none ∧ StopRecorded s st

end Sys2Proof.Machine
end

