-- ==== Sys2Proof/Certificates/Slice0/Obligations.lean ====
section
/-! DEFINITION. The statements for the provers.  The instruction statements write the next state out as an update of the
state before, so that each is a result, a completion and a whole frame at once; operands are written with the fields and
shifts of the rules, not with the model's operand functions. Where a statement names opcode or funct numbers it is about `OpcodeTable.mips`, the
spec's default of `OPCODE_TABLE` (R8, R55, decision D1; log entry 3); every other one holds for every table. -/

open Sys2Proof Sys2Proof.Machine

/-! ### Encoding -/

/-- Every well-formed instruction, with every value of every field, is read back from its word, under every legal opcode
table (R8, R48 to R55, R65; log entry 21), the default one among them. -/
def Obligations.DecodeOfEncode : Prop :=
  OpcodeTable.mips.wf = true ∧
  ∀ (t : OpcodeTable) (i : Instr), t.wf = true → i.wf t = true → decode t (encode t i) = .ok i

/-- Every word that decodes is the word of what it decodes to: no bit is dropped, used or not (R65), under every table. -/
def Obligations.EncodeOfDecode : Prop :=
  ∀ (t : OpcodeTable) (w : Word) (i : Instr), decode t w = .ok i → encode t i = w ∧ i.wf t = true

/-- Which words do not decode, and why (R50, R62; the funct failure is decision D10, log entry 9): the zero word; opcode 0
with a funct outside the eight; an opcode outside the eleven.  Every other word decodes. -/
def Obligations.DecodeRejectsExactly : Prop :=
  ∀ w : Word,
    (decode OpcodeTable.mips w = .error .zeroWord ↔ w = 0#32) ∧
    (decode OpcodeTable.mips w = .error .unknownFunct ↔ w ≠ 0#32 ∧ w.extractLsb' 26 6 = 0x00#6 ∧
      w.extractLsb' 0 6 ∉ [0x00#6, 0x02#6, 0x08#6, 0x21#6, 0x23#6, 0x24#6, 0x25#6, 0x2A#6]) ∧
    (decode OpcodeTable.mips w = .error .unknownOpcode ↔ w.extractLsb' 26 6 ∉
      [0x00#6, 0x02#6, 0x03#6, 0x04#6, 0x05#6, 0x09#6, 0x0C#6, 0x0D#6, 0x0F#6, 0x23#6, 0x2B#6])

/-- A few words of 95_test_vectors.md decode to the instructions the vectors name. -/
def Obligations.VectorWordsDecode : Prop :=
  decode OpcodeTable.mips 0x00221821#32 = .ok (.addu 1 2 3 0#5) ∧
  decode OpcodeTable.mips 0x00021FC2#32 = .ok (.srl 0 2 3 31#5) ∧
  decode OpcodeTable.mips 0x03E00008#32 = .ok (.jr 31 0 0 0#5) ∧
  decode OpcodeTable.mips 0x2423FFFF#32 = .ok (.addiu 1 3 0xFFFF#16) ∧
  decode OpcodeTable.mips 0x8CA40000#32 = .ok (.lw 5 4 0#16) ∧
  decode OpcodeTable.mips 0xAFA1FFFC#32 = .ok (.sw 29 1 0xFFFC#16) ∧
  decode OpcodeTable.mips 0x1420FFFD#32 = .ok (.bne 1 0 0xFFFD#16) ∧
  decode OpcodeTable.mips 0x0C100004#32 = .ok (.jal 0x0100004#26) ∧
  decode OpcodeTable.mips 0x00000000#32 = .error .zeroWord ∧
  decode OpcodeTable.mips 0x20010005#32 = .error .unknownOpcode ∧
  decode OpcodeTable.mips 0x00221820#32 = .error .unknownFunct

/-- Fields an operation does not use do not change what it does (R61, decision D14; log entry 10). -/
def Obligations.UnusedFieldsIgnored : Prop :=
  ∀ (rs rt rd rs' rt' rd' : Reg) (sh sh' : BitVec 5) (imm : BitVec 16) (s : State),
    exec (.addu rs rt rd sh) s = exec (.addu rs rt rd sh') s ∧
    exec (.subu rs rt rd sh) s = exec (.subu rs rt rd sh') s ∧
    exec (.and rs rt rd sh) s = exec (.and rs rt rd sh') s ∧
    exec (.or rs rt rd sh) s = exec (.or rs rt rd sh') s ∧
    exec (.slt rs rt rd sh) s = exec (.slt rs rt rd sh') s ∧
    exec (.jr rs rt rd sh) s = exec (.jr rs rt' rd' sh') s ∧
    exec (.sll rs rt rd sh) s = exec (.sll rs' rt rd sh) s ∧
    exec (.srl rs rt rd sh) s = exec (.srl rs' rt rd sh) s ∧
    exec (.lui rs rt imm) s = exec (.lui rs' rt imm) s

/-- The immediate forms (R56; R57 with conflict C1, log entry 17; R58, R95): `simm` is `imm - 65536` when bit 15 is set and `imm` otherwise; `zimm` is
`imm`; the branch displacement is four times `simm`, from -131072 to +131068; the `lui` value is `imm || 0x0000`; a jump
target is bits 31..28 of `pc + 4` (decision D9, log entry 11), the 26 bits, and two zero bits. -/
def Obligations.ImmediateForms : Prop :=
  ∀ (imm : BitVec 16) (pc : Word) (target : BitVec 26),
    (simm imm).toInt = (if imm.toNat < 0x8000 then (imm.toNat : Int) else (imm.toNat : Int) - 65536) ∧
    (zimm imm).toNat = imm.toNat ∧
    (branchOffset imm).toInt = 4 * (simm imm).toInt ∧
    -131072 ≤ (branchOffset imm).toInt ∧ (branchOffset imm).toInt ≤ 131068 ∧
    luiValue imm = imm ++ 0#16 ∧
    jumpTarget pc target = (pc + 4#32).extractLsb' 28 4 ++ target ++ 0#2

/-! ### Arithmetic, logic, shift and load-upper -/

/-- R79 whole: the encoding with `shamt` ignored, the sum modulo 2^32, the indicators and the next `pc`; nothing else
changes and no stop is raised. -/
def Obligations.AdduAdds : Prop :=
  (∀ w : Word, w.extractLsb' 26 6 = 0x00#6 → w.extractLsb' 0 6 = 0x21#6 →
    decode OpcodeTable.mips w = .ok (.addu (w.extractLsb' 21 5).toFin (w.extractLsb' 16 5).toFin (w.extractLsb' 11 5).toFin
      (w.extractLsb' 6 5))) ∧
  ∀ (rs rt rd : Reg) (shamt : BitVec 5) (s : State),
    exec (.addu rs rt rd shamt) s = .next { s with
      regs := s.regs.set rd (s.regs[rs] + s.regs[rt]), pc := s.pc + 4#32, lastReg := some rd, lastMem := none }

/-- R80 whole: the encoding, and the difference modulo 2^32. -/
def Obligations.SubuSubtracts : Prop :=
  (∀ w : Word, w.extractLsb' 26 6 = 0x00#6 → w.extractLsb' 0 6 = 0x23#6 →
    decode OpcodeTable.mips w = .ok (.subu (w.extractLsb' 21 5).toFin (w.extractLsb' 16 5).toFin (w.extractLsb' 11 5).toFin
      (w.extractLsb' 6 5))) ∧
  ∀ (rs rt rd : Reg) (shamt : BitVec 5) (s : State),
    exec (.subu rs rt rd shamt) s = .next { s with
      regs := s.regs.set rd (s.regs[rs] - s.regs[rt]), pc := s.pc + 4#32, lastReg := some rd, lastMem := none }

/-- R81 whole: the encoding, and the bitwise and. -/
def Obligations.AndMasks : Prop :=
  (∀ w : Word, w.extractLsb' 26 6 = 0x00#6 → w.extractLsb' 0 6 = 0x24#6 →
    decode OpcodeTable.mips w = .ok (.and (w.extractLsb' 21 5).toFin (w.extractLsb' 16 5).toFin (w.extractLsb' 11 5).toFin
      (w.extractLsb' 6 5))) ∧
  ∀ (rs rt rd : Reg) (shamt : BitVec 5) (s : State),
    exec (.and rs rt rd shamt) s = .next { s with
      regs := s.regs.set rd (s.regs[rs] &&& s.regs[rt]), pc := s.pc + 4#32, lastReg := some rd, lastMem := none }

/-- R82 whole: the encoding, and the bitwise or. -/
def Obligations.OrJoins : Prop :=
  (∀ w : Word, w.extractLsb' 26 6 = 0x00#6 → w.extractLsb' 0 6 = 0x25#6 →
    decode OpcodeTable.mips w = .ok (.or (w.extractLsb' 21 5).toFin (w.extractLsb' 16 5).toFin (w.extractLsb' 11 5).toFin
      (w.extractLsb' 6 5))) ∧
  ∀ (rs rt rd : Reg) (shamt : BitVec 5) (s : State),
    exec (.or rs rt rd shamt) s = .next { s with
      regs := s.regs.set rd (s.regs[rs] ||| s.regs[rt]), pc := s.pc + 4#32, lastReg := some rd, lastMem := none }

/-- R83 whole: the encoding, and 1 when `rs` is less than `rt` as signed values, else 0. -/
def Obligations.SltComparesSigned : Prop :=
  (∀ w : Word, w.extractLsb' 26 6 = 0x00#6 → w.extractLsb' 0 6 = 0x2A#6 →
    decode OpcodeTable.mips w = .ok (.slt (w.extractLsb' 21 5).toFin (w.extractLsb' 16 5).toFin (w.extractLsb' 11 5).toFin
      (w.extractLsb' 6 5))) ∧
  ∀ (rs rt rd : Reg) (shamt : BitVec 5) (s : State),
    exec (.slt rs rt rd shamt) s = .next { s with
      regs := s.regs.set rd (if s.regs[rs].toInt < s.regs[rt].toInt then 0x00000001#32 else 0x00000000#32),
      pc := s.pc + 4#32, lastReg := some rd, lastMem := none }

/-- R84 whole: the encoding (the zero word is not `sll`), and the shift left by `shamt`; `rs` is ignored. -/
def Obligations.SllShiftsLeft : Prop :=
  (∀ w : Word, w ≠ 0x00000000#32 → w.extractLsb' 26 6 = 0x00#6 → w.extractLsb' 0 6 = 0x00#6 →
    decode OpcodeTable.mips w = .ok (.sll (w.extractLsb' 21 5).toFin (w.extractLsb' 16 5).toFin (w.extractLsb' 11 5).toFin
      (w.extractLsb' 6 5))) ∧
  decode OpcodeTable.mips 0x00000000#32 = .error .zeroWord ∧
  ∀ (rs rt rd : Reg) (shamt : BitVec 5) (s : State),
    exec (.sll rs rt rd shamt) s = .next { s with
      regs := s.regs.set rd (s.regs[rt] <<< shamt.toNat), pc := s.pc + 4#32, lastReg := some rd, lastMem := none }

/-- R85 whole: the encoding, and the logical shift right by `shamt`; `rs` is ignored. -/
def Obligations.SrlShiftsRight : Prop :=
  (∀ w : Word, w.extractLsb' 26 6 = 0x00#6 → w.extractLsb' 0 6 = 0x02#6 →
    decode OpcodeTable.mips w = .ok (.srl (w.extractLsb' 21 5).toFin (w.extractLsb' 16 5).toFin (w.extractLsb' 11 5).toFin
      (w.extractLsb' 6 5))) ∧
  ∀ (rs rt rd : Reg) (shamt : BitVec 5) (s : State),
    exec (.srl rs rt rd shamt) s = .next { s with
      regs := s.regs.set rd (s.regs[rt] >>> shamt.toNat), pc := s.pc + 4#32, lastReg := some rd, lastMem := none }

/-- R86 whole: the encoding, and the sum with the sign-extended immediate modulo 2^32. -/
def Obligations.AddiuAddsImmediate : Prop :=
  (∀ w : Word, w.extractLsb' 26 6 = 0x09#6 →
    decode OpcodeTable.mips w = .ok (.addiu (w.extractLsb' 21 5).toFin (w.extractLsb' 16 5).toFin (w.extractLsb' 0 16))) ∧
  ∀ (rs rt : Reg) (imm : BitVec 16) (s : State),
    exec (.addiu rs rt imm) s = .next { s with
      regs := s.regs.set rt (s.regs[rs] + imm.signExtend 32), pc := s.pc + 4#32, lastReg := some rt, lastMem := none }

/-- `andi` (R87): the encoding, and the and with the ZERO-extended immediate.  That it is zero-extended is conflict C1, where the
document contradicts itself (DEDUCED, log entry 17). -/
def Obligations.AndiMasksImmediate : Prop :=
  (∀ w : Word, w.extractLsb' 26 6 = 0x0C#6 →
    decode OpcodeTable.mips w = .ok (.andi (w.extractLsb' 21 5).toFin (w.extractLsb' 16 5).toFin (w.extractLsb' 0 16))) ∧
  ∀ (rs rt : Reg) (imm : BitVec 16) (s : State),
    exec (.andi rs rt imm) s = .next { s with
      regs := s.regs.set rt (s.regs[rs] &&& imm.setWidth 32), pc := s.pc + 4#32, lastReg := some rt, lastMem := none }

/-- `ori` (R88): the encoding, and the or with the ZERO-extended immediate.  That it is zero-extended is conflict C1, where the
document contradicts itself (DEDUCED, log entry 17). -/
def Obligations.OriJoinsImmediate : Prop :=
  (∀ w : Word, w.extractLsb' 26 6 = 0x0D#6 →
    decode OpcodeTable.mips w = .ok (.ori (w.extractLsb' 21 5).toFin (w.extractLsb' 16 5).toFin (w.extractLsb' 0 16))) ∧
  ∀ (rs rt : Reg) (imm : BitVec 16) (s : State),
    exec (.ori rs rt imm) s = .next { s with
      regs := s.regs.set rt (s.regs[rs] ||| imm.setWidth 32), pc := s.pc + 4#32, lastReg := some rt, lastMem := none }

/-- R89 whole: the encoding with `rs` ignored, and `simm << 16`, which is `imm16 || 0x0000`. -/
def Obligations.LuiLoadsUpper : Prop :=
  (∀ w : Word, w.extractLsb' 26 6 = 0x0F#6 →
    decode OpcodeTable.mips w = .ok (.lui (w.extractLsb' 21 5).toFin (w.extractLsb' 16 5).toFin (w.extractLsb' 0 16))) ∧
  ∀ (rs rt : Reg) (imm : BitVec 16) (s : State),
    exec (.lui rs rt imm) s = .next { s with
      regs := s.regs.set rt (imm.signExtend 32 <<< 16), pc := s.pc + 4#32, lastReg := some rt, lastMem := none } ∧
    imm.signExtend 32 <<< 16 = imm ++ 0x0000#16

/-! ### Load and store

The stop on an invalid address is the spec's decision D8 on what the document leaves undefined (log entry 12), and what a
stop does to the state rests on decisions D11, D12, D13 and D19. -/

/-- `lw` (R90): at an address that is aligned and inside memory it completes with the word there; at any other it stops
with `UndefinedAccess(load, ea)` and nothing of the step commits. -/
def Obligations.LwLoadsOrStops : Prop :=
  (∀ w : Word, w.extractLsb' 26 6 = 0x23#6 →
    decode OpcodeTable.mips w = .ok (.lw (w.extractLsb' 21 5).toFin (w.extractLsb' 16 5).toFin (w.extractLsb' 0 16))) ∧
  ∀ (rs rt : Reg) (imm : BitVec 16) (s : State) (ea : Word), ea = s.regs[rs] + imm.signExtend 32 →
    ((ea.toNat % 4 = 0 ∧ s.config.base.toNat ≤ ea.toNat ∧
        ea.toNat < s.config.base.toNat + 4 * (s.config.instrWords + s.config.dataWords)) →
      exec (.lw rs rt imm) s = .next { s with
        regs := s.regs.set rt (s.mem.readWord ea.toNat), pc := s.pc + 4#32, lastReg := some rt, lastMem := none }) ∧
    (¬ (ea.toNat % 4 = 0 ∧ s.config.base.toNat ≤ ea.toNat ∧
        ea.toNat < s.config.base.toNat + 4 * (s.config.instrWords + s.config.dataWords)) →
      exec (.lw rs rt imm) s = .next { s with
        lastReg := none, lastMem := none,
        status := .stopped { pc := s.pc, cause := .undefinedAccess .load ea } })

/-- `sw` (R91): at an address that is aligned and inside memory it completes, with the whole word there replaced by
`x[rt]` and the address reported; at any other it stops with `UndefinedAccess(store, ea)` and nothing commits. -/
def Obligations.SwStoresOrStops : Prop :=
  (∀ w : Word, w.extractLsb' 26 6 = 0x2B#6 →
    decode OpcodeTable.mips w = .ok (.sw (w.extractLsb' 21 5).toFin (w.extractLsb' 16 5).toFin (w.extractLsb' 0 16))) ∧
  ∀ (rs rt : Reg) (imm : BitVec 16) (s : State) (ea : Word), ea = s.regs[rs] + imm.signExtend 32 →
    ((ea.toNat % 4 = 0 ∧ s.config.base.toNat ≤ ea.toNat ∧
        ea.toNat < s.config.base.toNat + 4 * (s.config.instrWords + s.config.dataWords)) →
      exec (.sw rs rt imm) s = .next { s with
        mem := s.mem.writeWord ea.toNat s.regs[rt], pc := s.pc + 4#32, lastReg := none, lastMem := some ea }) ∧
    (¬ (ea.toNat % 4 = 0 ∧ s.config.base.toNat ≤ ea.toNat ∧
        ea.toNat < s.config.base.toNat + 4 * (s.config.instrWords + s.config.dataWords)) →
      exec (.sw rs rt imm) s = .next { s with
        lastReg := none, lastMem := none,
        status := .stopped { pc := s.pc, cause := .undefinedAccess .store ea } })

/-! ### Control transfer -/

/-- `beq` (R93): the encoding, and `pc + 4` plus the displacement when the operands are equal; the step writes no register
and raises no stop.  With equal operands and an immediate of -1 the branch goes to itself. -/
def Obligations.BeqBranches : Prop :=
  (∀ w : Word, w.extractLsb' 26 6 = 0x04#6 →
    decode OpcodeTable.mips w = .ok (.beq (w.extractLsb' 21 5).toFin (w.extractLsb' 16 5).toFin (w.extractLsb' 0 16))) ∧
  (∀ (rs rt : Reg) (imm : BitVec 16) (s : State),
    exec (.beq rs rt imm) s = .next { s with
      pc := (s.pc + 4#32) + (if s.regs[rs] = s.regs[rt] then imm.signExtend 32 <<< 2 else 0x00000000#32),
      lastReg := none, lastMem := none }) ∧
  ∀ (rs rt : Reg) (s : State), s.regs[rs] = s.regs[rt] →
    exec (.beq rs rt 0xFFFF#16) s = .next { s with pc := s.pc, lastReg := none, lastMem := none }

/-- `bne` (R94): the encoding, and `pc + 4` plus the displacement when the operands differ; with one register named twice
it is never taken. -/
def Obligations.BneBranches : Prop :=
  (∀ w : Word, w.extractLsb' 26 6 = 0x05#6 →
    decode OpcodeTable.mips w = .ok (.bne (w.extractLsb' 21 5).toFin (w.extractLsb' 16 5).toFin (w.extractLsb' 0 16))) ∧
  (∀ (rs rt : Reg) (imm : BitVec 16) (s : State),
    exec (.bne rs rt imm) s = .next { s with
      pc := (s.pc + 4#32) + (if s.regs[rs] ≠ s.regs[rt] then imm.signExtend 32 <<< 2 else 0x00000000#32),
      lastReg := none, lastMem := none }) ∧
  ∀ (r : Reg) (imm : BitVec 16) (s : State),
    exec (.bne r r imm) s = .next { s with pc := s.pc + 4#32, lastReg := none, lastMem := none }

/-- `j` (R95): the target in the region of `pc + 4` (decision D9, log entry 11). -/
def Obligations.JumpGoesToTarget : Prop :=
  (∀ w : Word, w.extractLsb' 26 6 = 0x02#6 → decode OpcodeTable.mips w = .ok (.j (w.extractLsb' 0 26))) ∧
  ∀ (target : BitVec 26) (s : State),
    exec (.j target) s = .next { s with
      pc := ((s.pc + 4#32) &&& 0xF0000000#32) ||| (target.setWidth 32 <<< 2), lastReg := none, lastMem := none }

/-- `jal` (R96): the return address `pc + 4` in register 31, whatever the target's bits; the target as for `j` (decision
D9, log entry 11). -/
def Obligations.JalLinks : Prop :=
  (∀ w : Word, w.extractLsb' 26 6 = 0x03#6 → decode OpcodeTable.mips w = .ok (.jal (w.extractLsb' 0 26))) ∧
  ∀ (target : BitVec 26) (s : State),
    exec (.jal target) s = .next { s with
      regs := s.regs.set 31 (s.pc + 4#32), pc := ((s.pc + 4#32) &&& 0xF0000000#32) ||| (target.setWidth 32 <<< 2),
      lastReg := some 31, lastMem := none }

/-- `jr` (R97): the encoding with `rt`, `rd` and `shamt` ignored, and `pc` set to the register, whatever its value; a
target that is misaligned or outside memory stops the next step's fetch (decision D8, log entry 12). -/
def Obligations.JrJumpsToRegister : Prop :=
  (∀ w : Word, w.extractLsb' 26 6 = 0x00#6 → w.extractLsb' 0 6 = 0x08#6 →
    decode OpcodeTable.mips w = .ok (.jr (w.extractLsb' 21 5).toFin (w.extractLsb' 16 5).toFin (w.extractLsb' 11 5).toFin
      (w.extractLsb' 6 5))) ∧
  ∀ (rs rt rd : Reg) (shamt : BitVec 5) (s : State),
    exec (.jr rs rt rd shamt) s = .next { s with pc := s.regs[rs], lastReg := none, lastMem := none } ∧
    (s.status = .running → validAddr s.config s.regs[rs] = false →
      step { s with pc := s.regs[rs], lastReg := none, lastMem := none } = .next { s with
        pc := s.regs[rs], lastReg := none, lastMem := none,
        status := .stopped { pc := s.regs[rs], cause := .undefinedAccess .fetch s.regs[rs] } })

/-! ### Frames -/

/-- The R-format instructions with a destination: every register but `rd` is unchanged, every byte of memory reads as
before, no store is reported, and parameters and run status stand. -/
def Obligations.FrameRFormat : Prop :=
  ∀ (rs rt rd : Reg) (sh : BitVec 5) (s t : State),
    (exec (.addu rs rt rd sh) s = .next t ∨ exec (.subu rs rt rd sh) s = .next t ∨
      exec (.and rs rt rd sh) s = .next t ∨ exec (.or rs rt rd sh) s = .next t ∨
      exec (.slt rs rt rd sh) s = .next t ∨ exec (.sll rs rt rd sh) s = .next t ∨
      exec (.srl rs rt rd sh) s = .next t) →
    (∀ r, r ≠ rd → t.readReg r = s.readReg r) ∧ (∀ a, t.mem.readByte a = s.mem.readByte a) ∧
    t.lastMem = none ∧ t.config = s.config ∧ t.status = s.status

/-- The I-format instructions with a destination: every register but `rt` is unchanged and every byte of memory reads as
before; the run status stands, but for `lw` on an invalid address. -/
def Obligations.FrameIFormat : Prop :=
  ∀ (rs rt : Reg) (imm : BitVec 16) (s t : State),
    (exec (.addiu rs rt imm) s = .next t ∨ exec (.andi rs rt imm) s = .next t ∨
      exec (.ori rs rt imm) s = .next t ∨ exec (.lui rs rt imm) s = .next t ∨ exec (.lw rs rt imm) s = .next t) →
    (∀ r, r ≠ rt → t.readReg r = s.readReg r) ∧ (∀ a, t.mem.readByte a = s.mem.readByte a) ∧
    t.lastMem = none ∧ t.config = s.config ∧
    (t.status = s.status ∨ (exec (.lw rs rt imm) s = .next t ∧
      validAddr s.config (effectiveAddress (s.readReg rs) imm) = false))

/-- The control transfers: no register changes but register 31 by `jal`, and every byte of memory reads as before. -/
def Obligations.FrameTransfers : Prop :=
  ∀ (rs rt rd : Reg) (sh : BitVec 5) (imm : BitVec 16) (target : BitVec 26) (s t : State),
    ((exec (.jr rs rt rd sh) s = .next t ∨ exec (.beq rs rt imm) s = .next t ∨ exec (.bne rs rt imm) s = .next t ∨
        exec (.j target) s = .next t) →
      (∀ r, t.readReg r = s.readReg r) ∧ (∀ a, t.mem.readByte a = s.mem.readByte a) ∧
      t.lastReg = none ∧ t.lastMem = none ∧ t.config = s.config ∧ t.status = s.status) ∧
    (exec (.jal target) s = .next t →
      (∀ r, r ≠ 31 → t.readReg r = s.readReg r) ∧ (∀ a, t.mem.readByte a = s.mem.readByte a) ∧
      t.lastMem = none ∧ t.config = s.config ∧ t.status = s.status)

/-- The store: no register changes; every byte outside the word at the effective address reads as before; and where that
address is valid the word there is `x[rt]`. -/
def Obligations.FrameStore : Prop :=
  ∀ (rs rt : Reg) (imm : BitVec 16) (s t : State), s.mem.wf = true → exec (.sw rs rt imm) s = .next t →
    (∀ r, t.readReg r = s.readReg r) ∧ t.config = s.config ∧ t.lastReg = none ∧
    (∀ ea, effectiveAddress (s.readReg rs) imm = ea →
      (∀ a, (a < ea.toNat ∨ ea.toNat + 4 ≤ a) → t.mem.readByte a = s.mem.readByte a) ∧
      (validAddr s.config ea = true → t.memRead ea = some (s.readReg rt) ∧ t.status = s.status) ∧
      (validAddr s.config ea = false → ∀ a, t.mem.readByte a = s.mem.readByte a))

/-! ### Registers -/

/-- R15: register 0 is not hardwired.  A write to index 0, by an instruction that names it, stores the value; a later read
of index 0, by an instruction that names it, returns it. -/
def Obligations.RegisterZeroIsOrdinary : Prop :=
  (∀ (s : State) (v : Word), (s.writeReg 0 v).readReg 0 = v) ∧
  ∀ (rs rd : Reg) (imm : BitVec 16) (s : State), ∃ t u,
    exec (.addiu rs 0 imm) s = .next t ∧ t.readReg 0 = s.readReg rs + imm.signExtend 32 ∧
    exec (.or 0 0 rd 0#5) t = .next u ∧ u.readReg rd = s.readReg rs + imm.signExtend 32

/-- R17, the writes: a register that is not the instruction's destination in the table is unchanged, and an instruction
reports its destination unless its data access stops it.  R17, the reads: a change to a register the instruction does
not use changes no result; the two runs end alike but for that register itself, and alike there too if the instruction
writes it. -/
def Obligations.RegisterUse : Prop :=
  (∀ (i : Instr) (s t : State) (r : Reg), exec i s = .next t → dest i ≠ some r → t.readReg r = s.readReg r) ∧
  ∀ (i : Instr) (s : State) (r : Reg) (v : Word), r ∉ sources i →
    ∃ t, exec i s = .next t ∧
      (t.lastReg = dest i ∨ ∃ kind a, dataAccess s i = some (kind, a) ∧ validAddr s.config a = false) ∧
      exec i (s.writeReg r v) = .next (if t.lastReg = some r then t else t.writeReg r v)

/-- R18: a step changes at most one register, and only by the writeback of the instruction at `pc`, to the destination
the table of R17 gives it. -/
def Obligations.OneRegisterWritePerStep : Prop :=
  ∀ (s t : State), step s = .next t →
    (∃ r, ∀ q, q ≠ r → t.readReg q = s.readReg q) ∧
    ∀ q, t.readReg q ≠ s.readReg q →
      ∃ w i, s.memRead s.pc = some w ∧ decode s.config.opcodes w = .ok i ∧ dest i = some q ∧ t.lastReg = some q

/-- The indicators name every change (R18, R19, R67; the corner cases are decision D12, log entry 13): a register other than
`lastReg` is unchanged, a byte outside the word at `lastMem` is unchanged, not both are set, and the parameters stand. -/
def Obligations.IndicatorsNameEveryChange : Prop :=
  ∀ (s t : State), s.mem.wf = true → step s = .next t →
    (∀ r, t.lastReg ≠ some r → t.readReg r = s.readReg r) ∧
    (∀ a, (∀ ea, t.lastMem = some ea → a < ea.toNat ∨ ea.toNat + 4 ≤ a) → t.mem.readByte a = s.mem.readByte a) ∧
    (t.lastReg = none ∨ t.lastMem = none) ∧ t.config = s.config

/-- The indicators of a completed instruction (R19, decision D12; log entry 13): `lastReg` is its destination and `lastMem` is
the address of its store, whether or not a value changed. -/
def Obligations.IndicatorsOfInstruction : Prop :=
  ∀ (i : Instr) (s t : State), s.status = .running → exec i s = .next t → t.status = .running →
    t.lastReg = dest i ∧
    (∀ a, t.lastMem = some a ↔ dataAccess s i = some (.store, a))

/-! ### Memory -/

/-- `MemRead` and the memory array (R31, R32, R33; the failing access is decision D8): at an aligned address inside the range
it gives the word at index `(addr - BASE) / 4`, and nothing at any other. -/
def Obligations.MemReadByIndex : Prop :=
  ∀ (s : State) (a : Word), s.config.wf = true →
    s.memRead a =
      if a.toNat % 4 = 0 ∧ s.config.base.toNat ≤ a.toNat ∧
          a.toNat < s.config.base.toNat + 4 * (s.config.instrWords + s.config.dataWords)
      then some (s.wordAt ((a.toNat - s.config.base.toNat) / 4)) else none

/-- `MemWrite` (R34; the failing access is decision D8): a store at a valid address replaces the whole word at index
`(addr - BASE) / 4` and no other word; at any other address it changes no word and stops. -/
def Obligations.MemWriteOneWord : Prop :=
  ∀ (rs rt : Reg) (imm : BitVec 16) (s t : State) (ea : Word), s.config.wf = true → s.mem.wf = true →
    ea = s.regs[rs] + imm.signExtend 32 → exec (.sw rs rt imm) s = .next t →
    (validAddr s.config ea = true →
      t.wordAt ((ea.toNat - s.config.base.toNat) / 4) = s.regs[rt] ∧
      ∀ k, k ≠ (ea.toNat - s.config.base.toNat) / 4 → t.wordAt k = s.wordAt k) ∧
    (validAddr s.config ea = false → (∀ k, t.wordAt k = s.wordAt k) ∧
      t.status = .stopped { pc := s.pc, cause := .undefinedAccess .store ea })

/-- A load returns the most recent store to its word (R42, R118): `sw` and then `lw` at the same address give the stored
value; at another valid address `lw` gives what it would have given before the store. -/
def Obligations.LoadAfterStore : Prop :=
  ∀ (rs rt rs' rt' : Reg) (imm imm' : BitVec 16) (s t : State),
    s.mem.wf = true → exec (.sw rs rt imm) s = .next t →
    validAddr s.config (effectiveAddress (s.readReg rs) imm) = true →
    validAddr s.config (effectiveAddress (s.readReg rs') imm') = true →
    ∃ u, exec (.lw rs' rt' imm') t = .next u ∧
      u.readReg rt' =
        if effectiveAddress (s.readReg rs') imm' = effectiveAddress (s.readReg rs) imm then s.readReg rt
        else s.mem.readWord (effectiveAddress (s.readReg rs') imm').toNat

/-- Vector W6: `lw` and then a `sw` of the loaded register to the same effective address leave memory as it was, as data,
and the address is reported all the same.  The store may take its base from any register (after `lw $5, 0($5)` register 5
no longer holds the base). -/
def Obligations.LoadStoreRoundTrip : Prop :=
  ∀ (rs rs' rt : Reg) (imm imm' : BitVec 16) (s t : State), s.mem.wf = true →
    validAddr s.config (effectiveAddress (s.readReg rs) imm) = true → exec (.lw rs rt imm) s = .next t →
    effectiveAddress (t.readReg rs') imm' = effectiveAddress (s.readReg rs) imm →
    ∃ u, exec (.sw rs' rt imm') t = .next u ∧ u.mem = s.mem ∧
      u.lastMem = some (effectiveAddress (s.readReg rs) imm)

/-- A store is seen by the next fetch of its address (R45, R120): from any running state that has the memory the store left
and whose `pc` is the stored address, the step runs the stored word. -/
def Obligations.FetchAfterStore : Prop :=
  ∀ (rs rt : Reg) (imm : BitVec 16) (s t u : State), s.mem.wf = true →
    validAddr s.config (effectiveAddress (s.readReg rs) imm) = true → exec (.sw rs rt imm) s = .next t →
    u.mem = t.mem → u.config = t.config → u.status = .running → u.pc = effectiveAddress (s.readReg rs) imm →
    (∀ i, decode s.config.opcodes (s.readReg rt) = .ok i → step u = exec i u) ∧
    (∀ k, decode s.config.opcodes (s.readReg rt) = .error k → step u = .next (u.stopWith (.decodeFailure k (s.readReg rt))))

/-! ### The step and its stops

What a stop does to the state is R100 with decisions D11, D12, D13 and D19; how this model answers it (a next state with status
`Stopped`, and a fault from then on) is log entry 7. -/

/-- A step runs the instruction that the word at `pc` decodes to, and adds nothing to it (R66, R76). -/
def Obligations.StepRunsDecodedInstr : Prop :=
  ∀ (s : State) (w : Word) (i : Instr), s.status = .running → s.memRead s.pc = some w → decode s.config.opcodes w = .ok i →
    step s = exec i s

/-- Fetch comes first (R69, R102): a misaligned or out-of-range `pc` stops the step with code 3, and nothing commits. -/
def Obligations.BadPcStops : Prop :=
  ∀ s : State, s.status = .running →
    ¬ (s.pc.toNat % 4 = 0 ∧ s.config.base.toNat ≤ s.pc.toNat ∧
      s.pc.toNat < s.config.base.toNat + 4 * (s.config.instrWords + s.config.dataWords)) →
    step s = .next { s with
      lastReg := none, lastMem := none,
      status := .stopped { pc := s.pc, cause := .undefinedAccess .fetch s.pc } }

/-- Decode comes next (R99, R100, R102): a word that does not decode stops the step; the record holds the `pc` and the word,
and no register, memory word or `pc` changes. -/
def Obligations.BadWordStops : Prop :=
  ∀ (s : State) (w : Word) (k : DecodeFailure), s.status = .running → s.memRead s.pc = some w → decode s.config.opcodes w = .error k →
    step s = .next { s with
      lastReg := none, lastMem := none, status := .stopped { pc := s.pc, cause := .decodeFailure k w } }

/-- The terminator (R115, vector W9): the zero word ends the run with code 0, a halt, and nothing commits. -/
def Obligations.ZeroWordHalts : Prop :=
  ∀ s : State, s.status = .running → s.memRead s.pc = some 0x00000000#32 →
    ∃ t, step s = .next t ∧ t.HaltedNormally ∧ t.regs = s.regs ∧ t.mem = s.mem ∧ t.pc = s.pc ∧
      t.lastReg = none ∧ t.lastMem = none

/-- The stop conditions are exactly those of R99, and each commits nothing (R67, R100): a running step always answers a next
state; it is stopped exactly when `pc` is invalid, or the word does not decode, or its data access is invalid; and a stopped
next state is the state before but for the indicators and the status. -/
def Obligations.StopsExactly : Prop :=
  ∀ s : State, s.status = .running → ∃ t, step s = .next t ∧
    (t.status ≠ .running ↔
      (validAddr s.config s.pc = false ∨
        ∃ w, s.memRead s.pc = some w ∧
          ((∃ k, decode s.config.opcodes w = .error k) ∨
            ∃ i kind a, decode s.config.opcodes w = .ok i ∧ dataAccess s i = some (kind, a) ∧ validAddr s.config a = false))) ∧
    (∀ st, t.status = .stopped st →
      st.pc = s.pc ∧ t = { s with lastReg := none, lastMem := none, status := .stopped st })

/-- A stopped CORE takes no further step, now or ever: every step request reports the same stop (R20, decision D13; log
entry 7). -/
def Obligations.StoppedForEver : Prop :=
  ∀ (s : State) (st : Stop), s.status = .stopped st →
    step s = .fault (.stopped st) ∧ requestStep s = (s, .stopped st) ∧
    ∀ n, Host.Core.run Sys2Proof.core (n + 1) s = .fault (.stopped st)

/-- The codes and classes of the stops (R99, decision D11). -/
def Obligations.StopCodes : Prop :=
  ∀ (pc x : Word),
    (Stop.mk pc (.decodeFailure .zeroWord x)).code = 0 ∧ (Stop.mk pc (.decodeFailure .unknownOpcode x)).code = 1 ∧
    (Stop.mk pc (.decodeFailure .unknownFunct x)).code = 2 ∧ (Stop.mk pc (.undefinedAccess .fetch x)).code = 3 ∧
    (Stop.mk pc (.undefinedAccess .load x)).code = 4 ∧ (Stop.mk pc (.undefinedAccess .store x)).code = 5 ∧
    ∀ st : Stop, st.isHalt = true ↔ st.code = 0

/-- There is one mode and no instruction is refused or faults (R107, R72): every instruction answers a next state in every
state, and only `lw` and `sw` can stop. -/
def Obligations.EveryInstructionAnswers : Prop :=
  ∀ (i : Instr) (s : State), ∃ t, exec i s = .next t ∧
    (dataAccess s i = none → t.status = s.status)

/-- No delay slot (R92).  A control transfer completes with its computed target as the next `pc` (R93 to R97; the region of a
jump is decision D9, log entry 11), and the step after it is that of the word which memory holds at that target: it runs
what the word decodes to, stops with the word's decode failure, or, at an invalid target, stops at fetch (R22; decision
D8, log entry 12).  The instruction at `pc + 4` is not run in between. -/
def Obligations.NoDelaySlot : Prop :=
  ∀ (i : Instr) (target : Word) (s : State), s.status = .running →
    ((∃ rs rt rd sh, i = .jr rs rt rd sh ∧ target = s.readReg rs) ∨
      (∃ rs rt imm, i = .beq rs rt imm ∧
        target = (s.pc + 4#32) + (if s.readReg rs = s.readReg rt then imm.signExtend 32 <<< 2 else 0#32)) ∨
      (∃ rs rt imm, i = .bne rs rt imm ∧
        target = (s.pc + 4#32) + (if s.readReg rs ≠ s.readReg rt then imm.signExtend 32 <<< 2 else 0#32)) ∨
      (∃ index, (i = .j index ∨ i = .jal index) ∧ target = jumpTarget s.pc index)) →
    ∃ t, exec i s = .next t ∧ t.pc = target ∧
      (∀ w next, s.memRead target = some w → decode s.config.opcodes w = .ok next → step t = exec next t) ∧
      (∀ w k, s.memRead target = some w → decode s.config.opcodes w = .error k →
        step t = .next (t.stopWith (.decodeFailure k w))) ∧
      (validAddr s.config target = false → step t = .next (t.stopWith (.undefinedAccess .fetch target)))

/-- Alignment of the next `pc` (R22): `j` and `jal` targets are always multiples of 4; those of `beq` and `bne`, and `pc + 4`
after every other instruction that completes, are so exactly when `pc` is. -/
def Obligations.PcAlignment : Prop :=
  ∀ (i : Instr) (s t : State), exec i s = .next t →
    match i with
    | .j _ | .jal _ => t.pc.toNat % 4 = 0
    | .jr rs _ _ _ => t.pc = s.readReg rs
    | _ => (t.pc.toNat % 4 = 0 ↔ s.pc.toNat % 4 = 0)

/-! ### Reset, loading, interface -/

/-- R28: at reset `pc` is `BASE`, for every value of the parameters. -/
def Obligations.ResetPcIsBase : Prop :=
  ∀ (c : Config) (g : Vector Word 32) (m : List Word), (State.resetWith c g m).pc = c.base

/-- The state at reset for every value of the parameters (R29, R30, R47, R113; decisions D4, D5, D6, D7, D12, D13). -/
def Obligations.ResetState : Prop :=
  ∀ (c : Config) (g : Vector Word 32) (m : List Word), c.wf = true →
    let s := State.resetWith c g m
    s.config = c ∧ s.pc = c.base ∧ s.lastReg = none ∧ s.lastMem = none ∧ s.status = .running ∧
    s.readReg 0 = 0#32 ∧
    (s.readReg 29).toNat = c.base.toNat + 4 * (c.instrWords + c.dataWords) ∧
    (∀ r : Reg, r ≠ 0 → r ≠ 29 → s.readReg r = g[r]) ∧
    ∀ (k : Nat) (hk : k < m.length), k < c.instrWords + c.dataWords → s.wordAt k = m[k]

/-- The invariant holds at reset, for every value of the parameters that R7 allows. -/
def Obligations.InvAtEveryReset : Prop :=
  ∀ (c : Config) (g : Vector Word 32) (m : List Word), c.wf = true → (State.resetWith c g m).Inv

/-- The invariant holds in the state `State.reset`, whose parameters are the model's choice (log entries 2, 5, 6). -/
def Obligations.InvAtReset : Prop := State.reset.Inv

/-- Every step keeps the invariant: legal parameters, canonical memory inside its range, indicators that name at most one
valid place, and a stop record that is that of the stopping step. -/
def Obligations.StepKeepsInv : Prop := ∀ (s t : State), s.Inv → step s = .next t → t.Inv

/-- The external loader (R47, R114; decisions D7, D24): a program of at most `INSTR_WORDS` words stands from `BASE`, word `i`
at `BASE + 4*i`, with `MEM_INIT` after it, and runs from its first word; a larger one has no run. -/
def Obligations.ProgramIsLoaded : Prop :=
  ∀ (c : Config) (g : Vector Word 32) (m prog : List Word), c.wf = true →
    (prog.length > c.instrWords → State.boot c g m prog = none) ∧
    (prog.length ≤ c.instrWords → ∃ s, State.boot c g m prog = some s ∧ s.pc = c.base ∧ s.status = .running ∧
      (∀ (k : Nat) (hk : k < prog.length), s.memRead (c.base + BitVec.ofNat 32 (4 * k)) = some prog[k]) ∧
      ∀ (k : Nat) (hk : k < m.length), prog.length ≤ k → k < c.instrWords + c.dataWords → s.wordAt k = m[k])

/-- `withFetchWord` (log entry 8): the very next step runs the placed word. -/
def Obligations.PlacedWordRuns : Prop :=
  ∀ (s : State) (w : Word), s.mem.wf = true → validAddr s.config s.pc = true →
    (∀ i, decode s.config.opcodes w = .ok i → step (s.withFetchWord 32 w.toNat) = exec i (s.withFetchWord 32 w.toNat)) ∧
    (∀ k, decode s.config.opcodes w = .error k → step (s.withFetchWord 32 w.toNat) =
      .next ((s.withFetchWord 32 w.toNat).stopWith (.decodeFailure k w)))

/-- The step interface (R77, decisions D11, D17): a request that completes returns the indicators, one that stops returns the
stop, and both leave the state the step gives. -/
def Obligations.RequestReports : Prop :=
  ∀ (s t : State), step s = .next t →
    (requestStep s).1 = t ∧
    (t.status = .running → (requestStep s).2 = .completed t.lastReg t.lastMem) ∧
    (∀ st, t.status = .stopped st → (requestStep s).2 = .stopped st)

/-- The inspection interface (R78, decision D21): the word at a valid address and no value at any other, the registers, the
`pc` and the indicators. -/
def Obligations.InspectionReads : Prop :=
  ∀ (s : State) (a : Word) (r : Reg), s.config.wf = true →
    (validAddr s.config a = true → s.inspectWord a = some (s.wordAt (wordIndex s.config a))) ∧
    (validAddr s.config a = false → s.inspectWord a = none) ∧
    s.inspectReg r = s.regs[r] ∧ s.inspectPc = s.pc ∧ s.inspectLastReg = s.lastReg ∧ s.inspectLastMem = s.lastMem

/-! ### The units -/

/-- The step written per instruction and the step wired from the six units (R69 to R76) are the same function, on every
state. -/
def Obligations.StepIsTheUnits : Prop := ∀ s : State, stepUnits s = step s

/-! ### The opcode table -/

/-- The decoder follows its parameter `OPCODE_TABLE` (R8, R50, R70; the funct failure is decision D10, log entry 9).  Under
every legal table (log entry 21) the number the table gives an operation selects that operation, whatever the other fields
hold, and a word no number selects fails with the reason of R50.  StepRunsDecodedInstr says that a step decodes with the
table of its state. -/
def Obligations.DecodeFollowsTable : Prop :=
  ∀ (t : OpcodeTable) (w : Word), t.wf = true →
    (∀ op : ROp, w ≠ 0#32 → w.extractLsb' 26 6 = 0x00#6 → w.extractLsb' 0 6 = t.rFunct op →
      decode t w = .ok (Instr.ofR op (w.extractLsb' 21 5).toFin (w.extractLsb' 16 5).toFin (w.extractLsb' 11 5).toFin
        (w.extractLsb' 6 5))) ∧
    (∀ op : IOp, w.extractLsb' 26 6 = t.iOpcode op →
      decode t w = .ok (Instr.ofI op (w.extractLsb' 21 5).toFin (w.extractLsb' 16 5).toFin (w.extractLsb' 0 16))) ∧
    (∀ op : JOp, w.extractLsb' 26 6 = t.jOpcode op → decode t w = .ok (Instr.ofJ op (w.extractLsb' 0 26))) ∧
    (decode t w = .error .zeroWord ↔ w = 0#32) ∧
    (decode t w = .error .unknownFunct ↔
      w ≠ 0#32 ∧ w.extractLsb' 26 6 = 0x00#6 ∧ ∀ op, w.extractLsb' 0 6 ≠ t.rFunct op) ∧
    (decode t w = .error .unknownOpcode ↔
      w.extractLsb' 26 6 ≠ 0x00#6 ∧ (∀ op, w.extractLsb' 26 6 ≠ t.jOpcode op) ∧
        ∀ op, w.extractLsb' 26 6 ≠ t.iOpcode op)
end

