-- ==== Sys2Proof/Laws/Decode.lean ====
section
/-! SUPPORT. The fields of an encoded word, the opcode table read both ways, and what a decoded word can be. -/

namespace Sys2Proof

/-! ### The table read backwards -/

section Lookup
variable {t : OpcodeTable}

/-- In a list without repeated keys, looking a listed element's key up finds that element. -/
theorem find?_key {α : Type} (key : α → BitVec 6) {l : List α} {a : α} (hl : (l.map key).Nodup) (ha : a ∈ l) :
    l.find? (fun x => key x == key a) = some a := by
  cases h : l.find? (fun x => key x == key a) with
  | none => simpa using List.find?_eq_none.1 h a ha
  | some b =>
    have hb := List.mem_of_find?_eq_some h
    have hk := List.find?_some h
    exact congrArg some (List.inj_on_of_nodup_map hl hb ha (eq_of_beq hk))

theorem mem_allROps (op : ROp) : op ∈ allROps := by cases op <;> simp [allROps]
theorem mem_allIOps (op : IOp) : op ∈ allIOps := by cases op <;> simp [allIOps]
theorem mem_allJOps (op : JOp) : op ∈ allJOps := by cases op <;> simp [allJOps]

/-- What a legal table says, split into its parts. -/
theorem OpcodeTable.wf_parts (h : t.wf = true) :
    t.rFuncts.Nodup ∧ t.jOpcodes.Nodup ∧ t.iOpcodes.Nodup ∧
    (∀ op, t.jOpcode op ≠ rOpcode) ∧ (∀ op, t.iOpcode op ≠ rOpcode) ∧ ∀ jo io, t.jOpcode jo ≠ t.iOpcode io := by
  simp only [OpcodeTable.wf, Bool.and_eq_true, decide_eq_true_eq, List.nodup_cons, List.nodup_append,
    List.mem_append, not_or] at h
  obtain ⟨hr, ⟨hj, hi⟩, hjn, hin, hd⟩ := h
  have mj : ∀ op, t.jOpcode op ∈ t.jOpcodes := fun op => List.mem_map_of_mem (mem_allJOps op)
  have mi : ∀ op, t.iOpcode op ∈ t.iOpcodes := fun op => List.mem_map_of_mem (mem_allIOps op)
  exact ⟨hr, hjn, hin, fun op e => hj (e ▸ mj op), fun op e => hi (e ▸ mi op), fun jo io => hd _ (mj jo) _ (mi io)⟩

theorem eq_rFunct_of_opOfFunct {f : BitVec 6} {op : ROp} (h : opOfFunct t f = some op) : f = t.rFunct op := by
  have := List.find?_some h
  exact (eq_of_beq this).symm
theorem eq_iOpcode_of_iOpOfOpcode {o : BitVec 6} {op : IOp} (h : iOpOfOpcode t o = some op) : o = t.iOpcode op := by
  have := List.find?_some h
  exact (eq_of_beq this).symm
theorem eq_jOpcode_of_jOpOfOpcode {o : BitVec 6} {op : JOp} (h : jOpOfOpcode t o = some op) : o = t.jOpcode op := by
  have := List.find?_some h
  exact (eq_of_beq this).symm

theorem opOfFunct_rFunct (ht : t.wf = true) (op : ROp) : opOfFunct t (t.rFunct op) = some op :=
  find?_key t.rFunct (OpcodeTable.wf_parts ht).1 (mem_allROps op)
theorem iOpOfOpcode_iOpcode (ht : t.wf = true) (op : IOp) : iOpOfOpcode t (t.iOpcode op) = some op :=
  find?_key t.iOpcode (OpcodeTable.wf_parts ht).2.2.1 (mem_allIOps op)
theorem jOpOfOpcode_jOpcode (ht : t.wf = true) (op : JOp) : jOpOfOpcode t (t.jOpcode op) = some op :=
  find?_key t.jOpcode (OpcodeTable.wf_parts ht).2.1 (mem_allJOps op)

/-- A lookup fails exactly outside `R_FUNCTS`, for any table. -/
theorem opOfFunct_eq_none {f : BitVec 6} : opOfFunct t f = none ↔ ∀ op, f ≠ t.rFunct op := by
  simp only [opOfFunct, List.find?_eq_none, beq_iff_eq]
  exact ⟨fun h op e => h op (mem_allROps op) e.symm, fun h op _ e => h op e.symm⟩
/-- A lookup fails exactly outside `I_OPCODES`, for any table. -/
theorem iOpOfOpcode_eq_none {o : BitVec 6} : iOpOfOpcode t o = none ↔ ∀ op, o ≠ t.iOpcode op := by
  simp only [iOpOfOpcode, List.find?_eq_none, beq_iff_eq]
  exact ⟨fun h op e => h op (mem_allIOps op) e.symm, fun h op _ e => h op e.symm⟩
/-- A lookup fails exactly outside `J_OPCODES`, for any table. -/
theorem jOpOfOpcode_eq_none {o : BitVec 6} : jOpOfOpcode t o = none ↔ ∀ op, o ≠ t.jOpcode op := by
  simp only [jOpOfOpcode, List.find?_eq_none, beq_iff_eq]
  exact ⟨fun h op e => h op (mem_allJOps op) e.symm, fun h op _ e => h op e.symm⟩

/-- The membership tests of `Classify` (R50) agree with the lookups, for any table. -/
theorem mem_rFuncts {f : BitVec 6} : f ∈ t.rFuncts ↔ opOfFunct t f ≠ none := by
  simp only [OpcodeTable.rFuncts, List.mem_map, mem_allROps, true_and, ne_eq, opOfFunct_eq_none, not_forall, not_not, eq_comm (a := f)]
theorem mem_iOpcodes {o : BitVec 6} : o ∈ t.iOpcodes ↔ iOpOfOpcode t o ≠ none := by
  simp only [OpcodeTable.iOpcodes, List.mem_map, mem_allIOps, true_and, ne_eq, iOpOfOpcode_eq_none, not_forall, not_not, eq_comm (a := o)]
theorem mem_jOpcodes {o : BitVec 6} : o ∈ t.jOpcodes ↔ jOpOfOpcode t o ≠ none := by
  simp only [OpcodeTable.jOpcodes, List.mem_map, mem_allJOps, true_and, ne_eq, jOpOfOpcode_eq_none, not_forall, not_not, eq_comm (a := o)]

end Lookup

/-- The default table is a legal one (R55). -/
theorem OpcodeTable.mips_wf : OpcodeTable.mips.wf = true := by decide

/-! ### Slices of a concatenation -/

/-- A slice that lies in the low part of a concatenation. -/
theorem extractLsb'_append_low {n m : Nat} (x : BitVec n) (y : BitVec m) (start len : Nat) (h : start + len ≤ m) :
    (x ++ y).extractLsb' start len = y.extractLsb' start len := by
  apply BitVec.eq_of_getLsbD_eq
  intro i hi
  simp only [BitVec.getLsbD_extractLsb', BitVec.getLsbD_append]
  have : start + i < m := by omega
  simp [this]

/-- A slice that lies in the high part of a concatenation. -/
theorem extractLsb'_append_high {n m : Nat} (x : BitVec n) (y : BitVec m) (start len : Nat) (h : m ≤ start) :
    (x ++ y).extractLsb' start len = x.extractLsb' (start - m) len := by
  apply BitVec.eq_of_getLsbD_eq
  intro i hi
  simp only [BitVec.getLsbD_extractLsb', BitVec.getLsbD_append]
  have : ¬ start + i < m := by omega
  simp [this, show start + i - m = start - m + i by omega]

theorem extractLsb'_whole {n : Nat} (x : BitVec n) : x.extractLsb' 0 n = x := by
  apply BitVec.eq_of_getLsbD_eq
  intro i hi
  simp [hi]

/-- Two neighbouring slices side by side are the slice over both. -/
theorem extractLsb'_append_extractLsb' {n : Nat} (x : BitVec n) (s a b : Nat) :
    x.extractLsb' (s + b) a ++ x.extractLsb' s b = x.extractLsb' s (a + b) := by
  apply BitVec.eq_of_getLsbD_eq
  intro i hi
  simp only [BitVec.getLsbD_append, BitVec.getLsbD_extractLsb']
  by_cases h : i < b
  · simp [h, hi]
  · have h1 : i - b < a := by omega
    simp [h, hi, h1, show s + b + (i - b) = s + i by omega]

/-! ### The fields of an encoded word -/

section R
variable (t : OpcodeTable) (op : ROp) (rs rt rd : Reg) (shamt : BitVec 5)

@[simp] theorem opcodeField_encodeR : opcodeField (encodeR t op rs rt rd shamt) = rOpcode := by
  unfold opcodeField encodeR
  rw [extractLsb'_append_high _ _ _ _ (by omega), extractLsb'_append_high _ _ _ _ (by omega),
    extractLsb'_append_high _ _ _ _ (by omega), extractLsb'_append_high _ _ _ _ (by omega),
    extractLsb'_append_high _ _ _ _ (by omega)]
  exact extractLsb'_whole _

@[simp] theorem rsField_encodeR : rsField (encodeR t op rs rt rd shamt) = rs := by
  unfold rsField encodeR
  rw [extractLsb'_append_high _ _ _ _ (by omega), extractLsb'_append_high _ _ _ _ (by omega),
    extractLsb'_append_high _ _ _ _ (by omega), extractLsb'_append_high _ _ _ _ (by omega),
    extractLsb'_append_low _ _ _ _ (by omega)]
  exact congrArg BitVec.toFin (extractLsb'_whole (regBits rs))

@[simp] theorem rtField_encodeR : rtField (encodeR t op rs rt rd shamt) = rt := by
  unfold rtField encodeR
  rw [extractLsb'_append_high _ _ _ _ (by omega), extractLsb'_append_high _ _ _ _ (by omega),
    extractLsb'_append_high _ _ _ _ (by omega), extractLsb'_append_low _ _ _ _ (by omega)]
  exact congrArg BitVec.toFin (extractLsb'_whole (regBits rt))

@[simp] theorem rdField_encodeR : rdField (encodeR t op rs rt rd shamt) = rd := by
  unfold rdField encodeR
  rw [extractLsb'_append_high _ _ _ _ (by omega), extractLsb'_append_high _ _ _ _ (by omega),
    extractLsb'_append_low _ _ _ _ (by omega)]
  exact congrArg BitVec.toFin (extractLsb'_whole (regBits rd))

@[simp] theorem shamtField_encodeR : shamtField (encodeR t op rs rt rd shamt) = shamt := by
  unfold shamtField encodeR
  rw [extractLsb'_append_high _ _ _ _ (by omega), extractLsb'_append_low _ _ _ _ (by omega)]
  exact extractLsb'_whole _

@[simp] theorem functField_encodeR : functField (encodeR t op rs rt rd shamt) = t.rFunct op := by
  unfold functField encodeR
  rw [extractLsb'_append_low _ _ _ _ (by omega)]
  exact extractLsb'_whole _

end R

section I
variable (t : OpcodeTable) (op : IOp) (rs rt : Reg) (imm : BitVec 16)

@[simp] theorem opcodeField_encodeI : opcodeField (encodeI t op rs rt imm) = t.iOpcode op := by
  unfold opcodeField encodeI
  rw [extractLsb'_append_high _ _ _ _ (by omega), extractLsb'_append_high _ _ _ _ (by omega),
    extractLsb'_append_high _ _ _ _ (by omega)]
  exact extractLsb'_whole _

@[simp] theorem rsField_encodeI : rsField (encodeI t op rs rt imm) = rs := by
  unfold rsField encodeI
  rw [extractLsb'_append_high _ _ _ _ (by omega), extractLsb'_append_high _ _ _ _ (by omega),
    extractLsb'_append_low _ _ _ _ (by omega)]
  exact congrArg BitVec.toFin (extractLsb'_whole (regBits rs))

@[simp] theorem rtField_encodeI : rtField (encodeI t op rs rt imm) = rt := by
  unfold rtField encodeI
  rw [extractLsb'_append_high _ _ _ _ (by omega), extractLsb'_append_low _ _ _ _ (by omega)]
  exact congrArg BitVec.toFin (extractLsb'_whole (regBits rt))

@[simp] theorem immField_encodeI : immField (encodeI t op rs rt imm) = imm := by
  unfold immField encodeI
  rw [extractLsb'_append_low _ _ _ _ (by omega)]
  exact extractLsb'_whole _

end I

@[simp] theorem opcodeField_encodeJ (t : OpcodeTable) (op : JOp) (target : BitVec 26) :
    opcodeField (encodeJ t op target) = t.jOpcode op := by
  unfold opcodeField encodeJ
  rw [extractLsb'_append_high _ _ _ _ (by omega)]
  exact extractLsb'_whole _

@[simp] theorem targetField_encodeJ (t : OpcodeTable) (op : JOp) (target : BitVec 26) : targetField (encodeJ t op target) = target := by
  unfold targetField encodeJ
  rw [extractLsb'_append_low _ _ _ _ (by omega)]
  exact extractLsb'_whole _

/-! ### A word put together from its fields -/

@[simp] theorem regBits_toFin (x : BitVec 5) : regBits x.toFin = x := rfl

theorem encodeR_fields {t : OpcodeTable} {w : Word} {op : ROp} (ho : opcodeField w = rOpcode) (hf : functField w = t.rFunct op) :
    encodeR t op (rsField w) (rtField w) (rdField w) (shamtField w) = w := by
  unfold encodeR
  rw [← ho, ← hf]
  simp only [rsField, rtField, rdField, regBits_toFin, opcodeField, shamtField, functField]
  refine Eq.trans ?_ (extractLsb'_whole w)
  rw [extractLsb'_append_extractLsb' w 21 6 5, extractLsb'_append_extractLsb' w 16 11 5,
    extractLsb'_append_extractLsb' w 11 16 5, extractLsb'_append_extractLsb' w 6 21 5,
    extractLsb'_append_extractLsb' w 0 26 6]

theorem encodeI_fields {t : OpcodeTable} {w : Word} {op : IOp} (ho : opcodeField w = t.iOpcode op) :
    encodeI t op (rsField w) (rtField w) (immField w) = w := by
  unfold encodeI
  rw [← ho]
  simp only [rsField, rtField, regBits_toFin, opcodeField, immField]
  refine Eq.trans ?_ (extractLsb'_whole w)
  rw [extractLsb'_append_extractLsb' w 21 6 5, extractLsb'_append_extractLsb' w 16 11 5,
    extractLsb'_append_extractLsb' w 0 16 16]

theorem encodeJ_fields {t : OpcodeTable} {w : Word} {op : JOp} (ho : opcodeField w = t.jOpcode op) :
    encodeJ t op (targetField w) = w := by
  unfold encodeJ
  rw [← ho]
  simp only [opcodeField, targetField]
  refine Eq.trans ?_ (extractLsb'_whole w)
  rw [extractLsb'_append_extractLsb' w 0 6 26]

theorem encode_ofR (t : OpcodeTable) (op : ROp) (rs rt rd : Reg) (shamt : BitVec 5) :
    encode t (Instr.ofR op rs rt rd shamt) = encodeR t op rs rt rd shamt := by cases op <;> rfl

theorem encode_ofI (t : OpcodeTable) (op : IOp) (rs rt : Reg) (imm : BitVec 16) :
    encode t (Instr.ofI op rs rt imm) = encodeI t op rs rt imm := by cases op <;> rfl

theorem encode_ofJ (t : OpcodeTable) (op : JOp) (target : BitVec 26) : encode t (Instr.ofJ op target) = encodeJ t op target := by
  cases op <;> rfl

/-- The only words that are zero are those of the ill-formed instructions (R50). -/
theorem notZeroWord_iff (t : OpcodeTable) (op : ROp) (rs rt rd : Reg) (shamt : BitVec 5) :
    notZeroWord (t.rFunct op) rs rt rd shamt = true ↔ encodeR t op rs rt rd shamt ≠ 0#32 := by
  constructor
  · intro h e
    have hf : t.rFunct op = 0#6 := by rw [← functField_encodeR t op rs rt rd shamt, e]; rfl
    have h1 : rs = 0 := by rw [← rsField_encodeR t op rs rt rd shamt, e]; rfl
    have h2 : rt = 0 := by rw [← rtField_encodeR t op rs rt rd shamt, e]; rfl
    have h3 : rd = 0 := by rw [← rdField_encodeR t op rs rt rd shamt, e]; rfl
    have h4 : shamt = 0#5 := by rw [← shamtField_encodeR t op rs rt rd shamt, e]; rfl
    simp [notZeroWord, hf, h1, h2, h3, h4] at h
  · intro h
    rw [notZeroWord, Bool.not_eq_true', Bool.eq_false_iff]
    intro e
    simp only [Bool.and_eq_true, beq_iff_eq] at e
    obtain ⟨⟨⟨⟨hf, rfl⟩, rfl⟩, rfl⟩, rfl⟩ := e
    exact h (by rw [encodeR, hf]; rfl)

theorem wf_ofR (t : OpcodeTable) (op : ROp) (rs rt rd : Reg) (shamt : BitVec 5) :
    (Instr.ofR op rs rt rd shamt).wf t = notZeroWord (t.rFunct op) rs rt rd shamt := by cases op <;> rfl
theorem wf_ofI (t : OpcodeTable) (op : IOp) (rs rt : Reg) (imm : BitVec 16) : (Instr.ofI op rs rt imm).wf t = true := by
  cases op <;> rfl
theorem wf_ofJ (t : OpcodeTable) (op : JOp) (target : BitVec 26) : (Instr.ofJ op target).wf t = true := by
  cases op <;> rfl

/-- Every instruction is one of its format (R54). -/
theorem Instr.format_cases (i : Instr) :
    (∃ op rs rt rd shamt, i = Instr.ofR op rs rt rd shamt) ∨ (∃ op rs rt imm, i = Instr.ofI op rs rt imm) ∨
    ∃ op target, i = Instr.ofJ op target := by
  cases i with
  | sll rs rt rd sh => exact .inl ⟨.sll, rs, rt, rd, sh, rfl⟩
  | srl rs rt rd sh => exact .inl ⟨.srl, rs, rt, rd, sh, rfl⟩
  | jr rs rt rd sh => exact .inl ⟨.jr, rs, rt, rd, sh, rfl⟩
  | addu rs rt rd sh => exact .inl ⟨.addu, rs, rt, rd, sh, rfl⟩
  | subu rs rt rd sh => exact .inl ⟨.subu, rs, rt, rd, sh, rfl⟩
  | and rs rt rd sh => exact .inl ⟨.and, rs, rt, rd, sh, rfl⟩
  | or rs rt rd sh => exact .inl ⟨.or, rs, rt, rd, sh, rfl⟩
  | slt rs rt rd sh => exact .inl ⟨.slt, rs, rt, rd, sh, rfl⟩
  | beq rs rt imm => exact .inr (.inl ⟨.beq, rs, rt, imm, rfl⟩)
  | bne rs rt imm => exact .inr (.inl ⟨.bne, rs, rt, imm, rfl⟩)
  | addiu rs rt imm => exact .inr (.inl ⟨.addiu, rs, rt, imm, rfl⟩)
  | andi rs rt imm => exact .inr (.inl ⟨.andi, rs, rt, imm, rfl⟩)
  | ori rs rt imm => exact .inr (.inl ⟨.ori, rs, rt, imm, rfl⟩)
  | lui rs rt imm => exact .inr (.inl ⟨.lui, rs, rt, imm, rfl⟩)
  | lw rs rt imm => exact .inr (.inl ⟨.lw, rs, rt, imm, rfl⟩)
  | sw rs rt imm => exact .inr (.inl ⟨.sw, rs, rt, imm, rfl⟩)
  | j target => exact .inr (.inr ⟨.j, target, rfl⟩)
  | jal target => exact .inr (.inr ⟨.jal, target, rfl⟩)

/-! ### What a word decodes to -/

section Decoding
variable {t : OpcodeTable} {w : Word}

/-- A word whose opcode is not the R format's is not the zero word. -/
theorem ne_zero_of_opcode (h : opcodeField w ≠ rOpcode) : w ≠ 0#32 := by
  rintro rfl
  exact h rfl

theorem decode_R (ht : t.wf = true) {op : ROp} (h0 : w ≠ 0#32) (ho : opcodeField w = rOpcode)
    (hf : functField w = t.rFunct op) :
    decode t w = .ok (Instr.ofR op (rsField w) (rtField w) (rdField w) (shamtField w)) := by
  simp [decode, h0, ho, decodeR, hf, opOfFunct_rFunct ht]

theorem decode_I (ht : t.wf = true) {op : IOp} (ho : opcodeField w = t.iOpcode op) :
    decode t w = .ok (Instr.ofI op (rsField w) (rtField w) (immField w)) := by
  obtain ⟨-, -, -, -, hr, hd⟩ := OpcodeTable.wf_parts ht
  have h1 : opcodeField w ≠ rOpcode := ho ▸ hr op
  have hj : jOpOfOpcode t (opcodeField w) = none := jOpOfOpcode_eq_none.2 fun jo => ho ▸ (hd jo op).symm
  simp [decode, ne_zero_of_opcode h1, h1, decodeJI, hj, ho ▸ iOpOfOpcode_iOpcode ht op]

theorem decode_J (ht : t.wf = true) {op : JOp} (ho : opcodeField w = t.jOpcode op) :
    decode t w = .ok (Instr.ofJ op (targetField w)) := by
  have h1 : opcodeField w ≠ rOpcode := ho ▸ (OpcodeTable.wf_parts ht).2.2.2.1 op
  simp [decode, ne_zero_of_opcode h1, h1, decodeJI, ho ▸ jOpOfOpcode_jOpcode ht op]

/-- Everything `decode` can answer (R50), for any table. -/
theorem decode_cases (t : OpcodeTable) (w : Word) :
    (w = 0#32 ∧ decode t w = .error .zeroWord) ∨
    (w ≠ 0#32 ∧ opcodeField w = rOpcode ∧ opOfFunct t (functField w) = none ∧ decode t w = .error .unknownFunct) ∨
    (∃ op, w ≠ 0#32 ∧ opcodeField w = rOpcode ∧ opOfFunct t (functField w) = some op ∧
      decode t w = .ok (Instr.ofR op (rsField w) (rtField w) (rdField w) (shamtField w))) ∨
    (∃ op, opcodeField w ≠ rOpcode ∧ jOpOfOpcode t (opcodeField w) = some op ∧
      decode t w = .ok (Instr.ofJ op (targetField w))) ∨
    (∃ op, opcodeField w ≠ rOpcode ∧ jOpOfOpcode t (opcodeField w) = none ∧
      iOpOfOpcode t (opcodeField w) = some op ∧
      decode t w = .ok (Instr.ofI op (rsField w) (rtField w) (immField w))) ∨
    (opcodeField w ≠ rOpcode ∧ jOpOfOpcode t (opcodeField w) = none ∧ iOpOfOpcode t (opcodeField w) = none ∧
      decode t w = .error .unknownOpcode) := by
  by_cases h0 : w = 0#32
  · exact .inl ⟨h0, by simp [decode, h0]⟩
  by_cases ho : opcodeField w = rOpcode
  · cases hf : opOfFunct t (functField w) with
    | none => exact .inr (.inl ⟨h0, ho, rfl, by simp [decode, h0, ho, decodeR, hf]⟩)
    | some op => exact .inr (.inr (.inl ⟨op, h0, ho, rfl, by simp [decode, h0, ho, decodeR, hf]⟩))
  · cases hj : jOpOfOpcode t (opcodeField w) with
    | some op => exact .inr (.inr (.inr (.inl ⟨op, ho, rfl, by simp [decode, h0, ho, decodeJI, hj]⟩)))
    | none =>
      cases hi : iOpOfOpcode t (opcodeField w) with
      | some op =>
        exact .inr (.inr (.inr (.inr (.inl ⟨op, ho, rfl, rfl, by simp [decode, h0, ho, decodeJI, hj, hi]⟩))))
      | none => exact .inr (.inr (.inr (.inr (.inr ⟨ho, rfl, rfl, by simp [decode, h0, ho, decodeJI, hj, hi]⟩))))

end Decoding

end Sys2Proof
end

