-- ==== Sys2Proof/Laws/Memory.lean ====
section
/-! SUPPORT. Memory as data: what a byte write does to every later read, that every operation keeps the canonical form
and the range, that canonical memories with the same bytes are equal, and the word accesses on top of it. -/

namespace Sys2Proof.Machine

/-! ### The canonical form -/

theorem Memory.canonicalFrom_mono {m : Memory} {lo lo' : Nat} (h : lo' ≤ lo)
    (hm : m.canonicalFrom lo = true) : m.canonicalFrom lo' = true := by
  cases m with
  | nil => rfl
  | cons c rest =>
    obtain ⟨k, v⟩ := c
    simp only [Memory.canonicalFrom, Bool.and_eq_true, decide_eq_true_eq] at hm ⊢
    exact ⟨⟨by omega, hm.1.2⟩, hm.2⟩

/-- Below the first listed address everything is unlisted. -/
theorem Memory.readByte_below {m : Memory} {lo a : Nat} (hm : m.canonicalFrom lo = true) (h : a < lo) :
    m.readByte a = unlistedByte := by
  induction m generalizing lo with
  | nil => rfl
  | cons c rest ih =>
    obtain ⟨k, v⟩ := c
    simp only [Memory.canonicalFrom, Bool.and_eq_true, decide_eq_true_eq] at hm
    have hne : a ≠ k := by omega
    simp only [Memory.readByte, if_neg hne]
    exact ih hm.2 (by omega)

theorem Memory.writeByte_canonicalFrom {m : Memory} {lo a : Nat} (b : Byte)
    (hm : m.canonicalFrom lo = true) (h : lo ≤ a) : (m.writeByte a b).canonicalFrom lo = true := by
  induction m generalizing lo with
  | nil => by_cases hb : b = unlistedByte <;> simp [Memory.writeByte, Memory.canonicalFrom, hb, h]
  | cons c rest ih =>
    obtain ⟨k, v⟩ := c
    have hm' := hm
    simp only [Memory.canonicalFrom, Bool.and_eq_true, decide_eq_true_eq] at hm'
    simp only [Memory.writeByte]
    split
    · rename_i hlt
      split
      · exact hm
      · rename_i hb
        simp [Memory.canonicalFrom, h, hb, hm'.1.2, hm'.2, Nat.succ_le_of_lt hlt]
    · split
      · rename_i heq
        subst heq
        split
        · exact Memory.canonicalFrom_mono (by omega) hm'.2
        · rename_i hb
          simp [Memory.canonicalFrom, h, hb, hm'.2]
      · have := ih hm'.2 (by omega)
        simp [Memory.canonicalFrom, hm'.1.1, hm'.1.2, this]

/-- What one byte write does to every read. -/
theorem Memory.readByte_writeByte {m : Memory} {lo : Nat} (hm : m.canonicalFrom lo = true) (a a' : Nat) (b : Byte) :
    (m.writeByte a b).readByte a' = if a' = a then b else m.readByte a' := by
  induction m generalizing lo with
  | nil =>
    by_cases hb : b = unlistedByte
    · simp [Memory.writeByte, Memory.readByte, hb]
    · simp [Memory.writeByte, Memory.readByte, hb]
  | cons c rest ih =>
    obtain ⟨k, v⟩ := c
    simp only [Memory.canonicalFrom, Bool.and_eq_true, decide_eq_true_eq] at hm
    simp only [Memory.writeByte]
    split
    · rename_i hlt
      have hbelow : Memory.readByte rest a = unlistedByte := Memory.readByte_below hm.2 (by omega)
      have hk : a ≠ k := by omega
      split
      · rename_i hb
        by_cases h : a' = a
        · subst h; simp [Memory.readByte, hk, hbelow, hb]
        · simp [h]
      · simp only [Memory.readByte]
    · split
      · rename_i heq
        subst heq
        have hbelow : Memory.readByte rest a = unlistedByte := Memory.readByte_below hm.2 (by omega)
        split
        · rename_i hb
          by_cases h : a' = a
          · subst h; simp [hbelow, hb]
          · simp [Memory.readByte, h]
        · by_cases h : a' = a <;> simp [Memory.readByte, h]
      · rename_i hk
        simp only [Memory.readByte, ih hm.2]
        by_cases h : a' = k
        · have : a' ≠ a := by omega
          simp [h, Ne.symm hk]
        · simp [h]

theorem Memory.writeByte_wf {m : Memory} (hm : m.wf = true) (a : Nat) (b : Byte) : (m.writeByte a b).wf = true :=
  Memory.writeByte_canonicalFrom b hm (Nat.zero_le a)

theorem Memory.writeWord_wf {m : Memory} (hm : m.wf = true) (a : Nat) (v : Word) : (m.writeWord a v).wf = true := by
  simp only [Memory.writeWord]
  exact Memory.writeByte_wf (Memory.writeByte_wf (Memory.writeByte_wf (Memory.writeByte_wf hm _ _) _ _) _ _) _ _

theorem Memory.placeWords_wf {m : Memory} (hm : m.wf = true) (a : Nat) (ws : List Word) :
    (m.placeWords a ws).wf = true := by
  induction ws generalizing m a with
  | nil => exact hm
  | cons v rest ih => exact ih (Memory.writeWord_wf hm a v) (a + 4)

@[simp] theorem Memory.nil_wf : Memory.wf [] = true := rfl

/-! ### The range -/

theorem Memory.writeByte_inside {m : Memory} {lo hi a : Nat} (b : Byte) (hm : m.inside lo hi = true)
    (hlo : lo ≤ a) (hhi : a < hi) : (m.writeByte a b).inside lo hi = true := by
  induction m with
  | nil => by_cases hb : b = unlistedByte <;> simp [Memory.writeByte, Memory.inside, hb, hlo, hhi]
  | cons c rest ih =>
    obtain ⟨k, v⟩ := c
    simp only [Memory.inside, List.all_cons, Bool.and_eq_true, decide_eq_true_eq] at hm ih ⊢
    simp only [Memory.writeByte]
    split
    · split <;> simp [hm, hlo, hhi]
    · split
      · split <;> simp [hm, hlo, hhi]
      · simp only [List.all_cons, Bool.and_eq_true, decide_eq_true_eq]
        exact ⟨hm.1, ih hm.2⟩

theorem Memory.writeWord_inside {m : Memory} {lo hi a : Nat} (v : Word) (hm : m.inside lo hi = true)
    (hlo : lo ≤ a) (hhi : a + 4 ≤ hi) : (m.writeWord a v).inside lo hi = true := by
  simp only [Memory.writeWord]
  exact Memory.writeByte_inside _ (Memory.writeByte_inside _ (Memory.writeByte_inside _
    (Memory.writeByte_inside _ hm hlo (by omega)) (by omega) (by omega)) (by omega) (by omega)) (by omega) (by omega)

theorem Memory.placeWords_inside {m : Memory} {lo hi a : Nat} (ws : List Word) (hm : m.inside lo hi = true)
    (hlo : lo ≤ a) (hhi : a + 4 * ws.length ≤ hi) : (m.placeWords a ws).inside lo hi = true := by
  induction ws generalizing m a with
  | nil => exact hm
  | cons v rest ih =>
    simp only [List.length_cons] at hhi
    exact ih (Memory.writeWord_inside v hm hlo (by omega)) (by omega) (by omega)

/-! ### Words -/

/-- What a word write does to every byte read. -/
theorem Memory.readByte_writeWord {m : Memory} (hm : m.wf = true) (a a' : Nat) (v : Word) :
    (m.writeWord a v).readByte a' =
      if a ≤ a' ∧ a' < a + 4 then byteOfWord v (a' - a) else m.readByte a' := by
  have h1 := Memory.writeByte_wf hm a (byteOfWord v 0)
  have h2 := Memory.writeByte_wf h1 (a + 1) (byteOfWord v 1)
  have h3 := Memory.writeByte_wf h2 (a + 2) (byteOfWord v 2)
  simp only [Memory.writeWord, Memory.readByte_writeByte h3, Memory.readByte_writeByte h2,
    Memory.readByte_writeByte h1, Memory.readByte_writeByte hm]
  by_cases h : a ≤ a' ∧ a' < a + 4
  · have : a' = a ∨ a' = a + 1 ∨ a' = a + 2 ∨ a' = a + 3 := by omega
    obtain rfl | rfl | rfl | rfl := this <;> simp
  · have e0 : a' ≠ a := by omega
    have e1 : a' ≠ a + 1 := by omega
    have e2 : a' ≠ a + 2 := by omega
    have e3 : a' ≠ a + 3 := by omega
    simp [h, e0, e1, e2, e3]

theorem Memory.readByte_writeWord_other {m : Memory} (hm : m.wf = true) {a a' : Nat} (v : Word)
    (h : a' < a ∨ a + 4 ≤ a') : (m.writeWord a v).readByte a' = m.readByte a' := by
  rw [Memory.readByte_writeWord hm, if_neg (by omega)]

/-- Four bytes of a word put together again are the word. -/
theorem bytes_of_word (v : Word) :
    byteOfWord v 3 ++ byteOfWord v 2 ++ byteOfWord v 1 ++ byteOfWord v 0 = v := by
  apply BitVec.eq_of_getLsbD_eq
  intro i hi
  simp only [byteOfWord, BitVec.getLsbD_append, BitVec.getLsbD_extractLsb']
  by_cases h0 : i < 8
  · simp [h0]
  · by_cases h1 : i < 16
    · have : i - 8 < 8 := by omega
      simp [h0, this, show 8 + (i - 8) = i by omega]
    · by_cases h2 : i < 24
      · have a1 : ¬ i - 8 < 8 := by omega
        have a2 : i - 8 - 8 < 8 := by omega
        simp [h0, a1, a2, show 16 + (i - 8 - 8) = i by omega]
      · have a1 : ¬ i - 8 < 8 := by omega
        have a2 : ¬ i - 8 - 8 < 8 := by omega
        have a3 : i - 8 - 8 - 8 < 8 := by omega
        simp [h0, a1, a2, a3, show 24 + (i - 8 - 8 - 8) = i by omega]

theorem Memory.readWord_writeWord_same {m : Memory} (hm : m.wf = true) (a : Nat) (v : Word) :
    (m.writeWord a v).readWord a = v := by
  simp only [Memory.readWord, Memory.readByte_writeWord hm]
  simpa using bytes_of_word v

/-- A word read depends on its four bytes alone. -/
theorem Memory.readWord_congr {m m' : Memory} {a : Nat} (h : ∀ j, j < 4 → m.readByte (a + j) = m'.readByte (a + j)) :
    m.readWord a = m'.readWord a := by
  have h0 := h 0 (by omega)
  simp only [Nat.add_zero] at h0
  simp only [Memory.readWord]
  rw [h0, h 1 (by omega), h 2 (by omega), h 3 (by omega)]

/-- A read of a word that does not overlap the written one is unchanged. -/
theorem Memory.readWord_writeWord_other {m : Memory} (hm : m.wf = true) {a a' : Nat} (v : Word)
    (h : a' + 4 ≤ a ∨ a + 4 ≤ a') : (m.writeWord a v).readWord a' = m.readWord a' := by
  simp only [Memory.readWord]
  rw [Memory.readByte_writeWord_other hm v (by omega), Memory.readByte_writeWord_other hm v (by omega),
    Memory.readByte_writeWord_other hm v (by omega), Memory.readByte_writeWord_other hm v (by omega)]

/-- Byte `k` of the word read at `a` is the byte at `a + k`. -/
theorem byteOfWord_readWord (m : Memory) (a k : Nat) (hk : k < 4) :
    byteOfWord (m.readWord a) k = m.readByte (a + k) := by
  have : k = 0 ∨ k = 1 ∨ k = 2 ∨ k = 3 := by omega
  apply BitVec.eq_of_getLsbD_eq
  intro i hi
  simp only [byteOfWord, Memory.readWord, BitVec.getLsbD_append, BitVec.getLsbD_extractLsb']
  obtain rfl | rfl | rfl | rfl := this
  · simp [hi]
  · have : ¬ 8 + i < 8 := by omega
    simp [hi, this, show 8 + i - 8 = i by omega]
  · have a1 : ¬ 16 + i < 8 := by omega
    have a2 : ¬ 16 + i - 8 < 8 := by omega
    simp [hi, a1, a2, show 16 + i - 8 - 8 = i by omega]
  · have a1 : ¬ 24 + i < 8 := by omega
    have a2 : ¬ 24 + i - 8 < 8 := by omega
    have a3 : ¬ 24 + i - 8 - 8 < 8 := by omega
    simp [hi, a1, a2, a3, show 24 + i - 8 - 8 - 8 = i by omega]

/-- Canonical memories that read alike everywhere are equal. -/
theorem Memory.eq_of_readByte {m m' : Memory} {lo lo' : Nat} (hm : m.canonicalFrom lo = true)
    (hm' : m'.canonicalFrom lo' = true) (h : ∀ a, m.readByte a = m'.readByte a) : m = m' := by
  induction m generalizing lo lo' m' with
  | nil =>
    cases m' with
    | nil => rfl
    | cons c rest =>
      obtain ⟨k, v⟩ := c
      simp only [Memory.canonicalFrom, Bool.and_eq_true, bne_iff_ne] at hm'
      have := h k
      simp only [Memory.readByte, if_true] at this
      exact absurd this.symm hm'.1.2
  | cons c rest ih =>
    obtain ⟨k, v⟩ := c
    have hmc := hm
    simp only [Memory.canonicalFrom, Bool.and_eq_true, bne_iff_ne, decide_eq_true_eq] at hm
    cases m' with
    | nil =>
      have := h k
      simp only [Memory.readByte, if_true] at this
      exact absurd this hm.1.2
    | cons c' rest' =>
      obtain ⟨k', v'⟩ := c'
      have hmc' := hm'
      simp only [Memory.canonicalFrom, Bool.and_eq_true, bne_iff_ne, decide_eq_true_eq] at hm'
      have hk : k = k' := by
        rcases Nat.lt_trichotomy k k' with hlt | heq | hgt
        · have hb : Memory.readByte ((k', v') :: rest') k = unlistedByte := by
            simp only [Memory.readByte, if_neg (show k ≠ k' by omega)]
            exact Memory.readByte_below hm'.2 (by omega)
          have := h k
          rw [hb] at this
          simp only [Memory.readByte, if_true] at this
          exact absurd this hm.1.2
        · exact heq
        · have hb : Memory.readByte ((k, v) :: rest) k' = unlistedByte := by
            simp only [Memory.readByte, if_neg (show k' ≠ k by omega)]
            exact Memory.readByte_below hm.2 (by omega)
          have := h k'
          rw [hb] at this
          simp only [Memory.readByte, if_true] at this
          exact absurd this.symm hm'.1.2
      subst hk
      have hv : v = v' := by
        have := h k
        simpa only [Memory.readByte, if_true] using this
      subst hv
      have hrest : rest = rest' := by
        refine ih hm.2 hm'.2 fun a => ?_
        by_cases ha : a = k
        · subst ha
          rw [Memory.readByte_below hm.2 (by omega), Memory.readByte_below hm'.2 (by omega)]
        · have := h a
          simpa only [Memory.readByte, if_neg ha] using this
      rw [hrest]

/-- Storing the word that is already there changes nothing. -/
theorem Memory.writeWord_readWord {m : Memory} (hm : m.wf = true) (a : Nat) :
    m.writeWord a (m.readWord a) = m := by
  refine Memory.eq_of_readByte (Memory.writeWord_wf hm a _) hm fun a' => ?_
  rw [Memory.readByte_writeWord hm]
  split
  · rename_i h
    rw [byteOfWord_readWord m a (a' - a) (by omega), show a + (a' - a) = a' by omega]
  · rfl

/-- Placing words leaves everything below their first address alone. -/
theorem Memory.readByte_placeWords_below {m : Memory} (hm : m.wf = true) {a a' : Nat} (ws : List Word) (h : a' < a) :
    (m.placeWords a ws).readByte a' = m.readByte a' := by
  induction ws generalizing m a with
  | nil => rfl
  | cons v rest ih =>
    simp only [Memory.placeWords]
    rw [ih (Memory.writeWord_wf hm a v) (by omega), Memory.readByte_writeWord_other hm v (by omega)]

/-- Word `k` of a placed sequence stands at `a + 4*k` (R47). -/
theorem Memory.readWord_placeWords {m : Memory} (hm : m.wf = true) (a : Nat) (ws : List Word) (k : Nat)
    (hk : k < ws.length) : (m.placeWords a ws).readWord (a + 4 * k) = ws[k] := by
  induction ws generalizing m a k with
  | nil => simp at hk
  | cons v rest ih =>
    have hw := Memory.writeWord_wf hm a v
    simp only [Memory.placeWords]
    cases k with
    | zero =>
      simp only [List.getElem_cons_zero, Nat.mul_zero, Nat.add_zero]
      refine Eq.trans (Memory.readWord_congr fun j hj => ?_) (Memory.readWord_writeWord_same hm a v)
      exact Memory.readByte_placeWords_below hw rest (by omega)
    | succ k =>
      simp only [List.getElem_cons_succ]
      rw [show a + 4 * (k + 1) = a + 4 + 4 * k by omega]
      exact ih hw (a + 4) k (by simpa using hk)

end Sys2Proof.Machine
end

