-- ==== Sys2Proof/Laws/PerInstr.lean ====
section
/-! SUPPORT. Facts made per instruction, one lemma for each constructor of Instr. -/

namespace Sys2Proof.Laws

/-- The family `FormatOpcode`: the opcode field of an instruction's word is that of its format, under
any opcode table; R-format words have opcode 0, and the others the number the table gives an operation (R8, R49, R51, R54). -/
def FormatOpcode.Statement (i : Instr) : Prop :=
  ∀ t : OpcodeTable, match i.shape with
  | .r => opcodeField (encode t i) = rOpcode
  | .i => ∃ op, opcodeField (encode t i) = t.iOpcode op
  | .j => ∃ op, opcodeField (encode t i) = t.jOpcode op

theorem FormatOpcode.sll (rs rt rd : Reg) (shamt : BitVec 5) : FormatOpcode.Statement (.sll rs rt rd shamt) :=
  fun t => opcodeField_encodeR t .sll rs rt rd shamt
theorem FormatOpcode.srl (rs rt rd : Reg) (shamt : BitVec 5) : FormatOpcode.Statement (.srl rs rt rd shamt) :=
  fun t => opcodeField_encodeR t .srl rs rt rd shamt
theorem FormatOpcode.jr (rs rt rd : Reg) (shamt : BitVec 5) : FormatOpcode.Statement (.jr rs rt rd shamt) :=
  fun t => opcodeField_encodeR t .jr rs rt rd shamt
theorem FormatOpcode.addu (rs rt rd : Reg) (shamt : BitVec 5) : FormatOpcode.Statement (.addu rs rt rd shamt) :=
  fun t => opcodeField_encodeR t .addu rs rt rd shamt
theorem FormatOpcode.subu (rs rt rd : Reg) (shamt : BitVec 5) : FormatOpcode.Statement (.subu rs rt rd shamt) :=
  fun t => opcodeField_encodeR t .subu rs rt rd shamt
theorem FormatOpcode.and (rs rt rd : Reg) (shamt : BitVec 5) : FormatOpcode.Statement (.and rs rt rd shamt) :=
  fun t => opcodeField_encodeR t .and rs rt rd shamt
theorem FormatOpcode.or (rs rt rd : Reg) (shamt : BitVec 5) : FormatOpcode.Statement (.or rs rt rd shamt) :=
  fun t => opcodeField_encodeR t .or rs rt rd shamt
theorem FormatOpcode.slt (rs rt rd : Reg) (shamt : BitVec 5) : FormatOpcode.Statement (.slt rs rt rd shamt) :=
  fun t => opcodeField_encodeR t .slt rs rt rd shamt
theorem FormatOpcode.beq (rs rt : Reg) (imm : BitVec 16) : FormatOpcode.Statement (.beq rs rt imm) :=
  fun t => ⟨.beq, opcodeField_encodeI t .beq rs rt imm⟩
theorem FormatOpcode.bne (rs rt : Reg) (imm : BitVec 16) : FormatOpcode.Statement (.bne rs rt imm) :=
  fun t => ⟨.bne, opcodeField_encodeI t .bne rs rt imm⟩
theorem FormatOpcode.addiu (rs rt : Reg) (imm : BitVec 16) : FormatOpcode.Statement (.addiu rs rt imm) :=
  fun t => ⟨.addiu, opcodeField_encodeI t .addiu rs rt imm⟩
theorem FormatOpcode.andi (rs rt : Reg) (imm : BitVec 16) : FormatOpcode.Statement (.andi rs rt imm) :=
  fun t => ⟨.andi, opcodeField_encodeI t .andi rs rt imm⟩
theorem FormatOpcode.ori (rs rt : Reg) (imm : BitVec 16) : FormatOpcode.Statement (.ori rs rt imm) :=
  fun t => ⟨.ori, opcodeField_encodeI t .ori rs rt imm⟩
theorem FormatOpcode.lui (rs rt : Reg) (imm : BitVec 16) : FormatOpcode.Statement (.lui rs rt imm) :=
  fun t => ⟨.lui, opcodeField_encodeI t .lui rs rt imm⟩
theorem FormatOpcode.lw (rs rt : Reg) (imm : BitVec 16) : FormatOpcode.Statement (.lw rs rt imm) :=
  fun t => ⟨.lw, opcodeField_encodeI t .lw rs rt imm⟩
theorem FormatOpcode.sw (rs rt : Reg) (imm : BitVec 16) : FormatOpcode.Statement (.sw rs rt imm) :=
  fun t => ⟨.sw, opcodeField_encodeI t .sw rs rt imm⟩
theorem FormatOpcode.j (target : BitVec 26) : FormatOpcode.Statement (.j target) :=
  fun t => ⟨.j, opcodeField_encodeJ t .j target⟩
theorem FormatOpcode.jal (target : BitVec 26) : FormatOpcode.Statement (.jal target) :=
  fun t => ⟨.jal, opcodeField_encodeJ t .jal target⟩

end Sys2Proof.Laws
end

