-- ==== Sys2Proof/Laws/State.lean ====
section
/-! SUPPORT. One lemma per field per update of State, so that no proof unfolds a record update. -/

namespace Sys2Proof.Machine

section WriteReg
variable (s : State) (r : Reg) (v : Word)

@[simp] theorem State.writeReg_config : (s.writeReg r v).config = s.config := rfl
@[simp] theorem State.writeReg_regs : (s.writeReg r v).regs = s.regs.set r.val v := rfl
@[simp] theorem State.writeReg_pc : (s.writeReg r v).pc = s.pc := rfl
@[simp] theorem State.writeReg_mem : (s.writeReg r v).mem = s.mem := rfl
@[simp] theorem State.writeReg_lastReg : (s.writeReg r v).lastReg = s.lastReg := rfl
@[simp] theorem State.writeReg_lastMem : (s.writeReg r v).lastMem = s.lastMem := rfl
@[simp] theorem State.writeReg_status : (s.writeReg r v).status = s.status := rfl

/-- The register file is 32 plain, distinct storage elements (R14, R15). -/
theorem State.readReg_writeReg (q : Reg) :
    (s.writeReg r v).readReg q = if q = r then v else s.readReg q := by
  simp only [State.readReg, State.writeReg, Vector.getElem_set]
  by_cases h : q = r
  · simp [h]
  · have : r.val ≠ q.val := fun e => h (Fin.ext e.symm)
    simp [h, this]

@[simp] theorem State.readReg_writeReg_same : (s.writeReg r v).readReg r = v := by
  simp [State.readReg_writeReg]

theorem State.readReg_writeReg_other {q : Reg} (h : q ≠ r) : (s.writeReg r v).readReg q = s.readReg q := by
  simp [State.readReg_writeReg, h]

end WriteReg

section Commit
variable (s : State) (reg : Option (Reg × Word)) (store : Option (Word × Word)) (npc : Word)

@[simp] theorem State.commit_config : (s.commit reg store npc).config = s.config := rfl
@[simp] theorem State.commit_pc : (s.commit reg store npc).pc = npc := rfl
@[simp] theorem State.commit_lastReg : (s.commit reg store npc).lastReg = reg.map Prod.fst := rfl
@[simp] theorem State.commit_lastMem : (s.commit reg store npc).lastMem = store.map Prod.fst := rfl
@[simp] theorem State.commit_status : (s.commit reg store npc).status = s.status := rfl
@[simp] theorem State.commit_regs_none : (s.commit none store npc).regs = s.regs := rfl
@[simp] theorem State.commit_regs_some (r : Reg) (v : Word) :
    (s.commit (some (r, v)) store npc).regs = s.regs.set r.val v := rfl
@[simp] theorem State.commit_mem_none : (s.commit reg none npc).mem = s.mem := rfl
@[simp] theorem State.commit_mem_some (a v : Word) :
    (s.commit reg (some (a, v)) npc).mem = s.mem.writeWord a.toNat v := rfl

@[simp] theorem State.readReg_commit_none (q : Reg) : (s.commit none store npc).readReg q = s.readReg q := rfl

theorem State.readReg_commit_some (r q : Reg) (v : Word) :
    (s.commit (some (r, v)) store npc).readReg q = if q = r then v else s.readReg q :=
  State.readReg_writeReg s r v q

end Commit

section Finish
variable (s : State) (r : Reg) (v npc : Word)

@[simp] theorem State.finishReg_config : (s.finishReg r v).config = s.config := rfl
@[simp] theorem State.finishReg_regs : (s.finishReg r v).regs = s.regs.set r.val v := rfl
@[simp] theorem State.finishReg_pc : (s.finishReg r v).pc = s.nextPc := rfl
@[simp] theorem State.finishReg_mem : (s.finishReg r v).mem = s.mem := rfl
@[simp] theorem State.finishReg_lastReg : (s.finishReg r v).lastReg = some r := rfl
@[simp] theorem State.finishReg_lastMem : (s.finishReg r v).lastMem = none := rfl
@[simp] theorem State.finishReg_status : (s.finishReg r v).status = s.status := rfl

@[simp] theorem State.finishJump_config : (s.finishJump npc).config = s.config := rfl
@[simp] theorem State.finishJump_regs : (s.finishJump npc).regs = s.regs := rfl
@[simp] theorem State.finishJump_pc : (s.finishJump npc).pc = npc := rfl
@[simp] theorem State.finishJump_mem : (s.finishJump npc).mem = s.mem := rfl
@[simp] theorem State.finishJump_lastReg : (s.finishJump npc).lastReg = none := rfl
@[simp] theorem State.finishJump_lastMem : (s.finishJump npc).lastMem = none := rfl
@[simp] theorem State.finishJump_status : (s.finishJump npc).status = s.status := rfl

end Finish

section StopWith
variable (s : State) (c : StopCause)

@[simp] theorem State.stopWith_config : (s.stopWith c).config = s.config := rfl
@[simp] theorem State.stopWith_regs : (s.stopWith c).regs = s.regs := rfl
@[simp] theorem State.stopWith_pc : (s.stopWith c).pc = s.pc := rfl
@[simp] theorem State.stopWith_mem : (s.stopWith c).mem = s.mem := rfl
@[simp] theorem State.stopWith_lastReg : (s.stopWith c).lastReg = none := rfl
@[simp] theorem State.stopWith_lastMem : (s.stopWith c).lastMem = none := rfl
@[simp] theorem State.stopWith_status : (s.stopWith c).status = .stopped { pc := s.pc, cause := c } := rfl
@[simp] theorem State.stopWith_readReg (q : Reg) : (s.stopWith c).readReg q = s.readReg q := rfl
@[simp] theorem State.stopWith_memRead (a : Word) : (s.stopWith c).memRead a = s.memRead a := rfl

end StopWith

section PlaceAtPc
variable (s : State) (w : Word)

@[simp] theorem State.placeAtPc_config : (s.placeAtPc w).config = s.config := rfl
@[simp] theorem State.placeAtPc_regs : (s.placeAtPc w).regs = s.regs := rfl
@[simp] theorem State.placeAtPc_pc : (s.placeAtPc w).pc = s.pc := rfl
@[simp] theorem State.placeAtPc_mem : (s.placeAtPc w).mem = s.mem.writeWord s.pc.toNat w := rfl
@[simp] theorem State.placeAtPc_lastReg : (s.placeAtPc w).lastReg = s.lastReg := rfl
@[simp] theorem State.placeAtPc_lastMem : (s.placeAtPc w).lastMem = s.lastMem := rfl
@[simp] theorem State.placeAtPc_status : (s.placeAtPc w).status = .running := rfl

end PlaceAtPc

section ResetWith
variable (c : Config) (g : Vector Word 32) (m : List Word)

@[simp] theorem State.resetWith_config : (State.resetWith c g m).config = c := rfl
@[simp] theorem State.resetWith_pc : (State.resetWith c g m).pc = c.base := rfl
@[simp] theorem State.resetWith_regs : (State.resetWith c g m).regs = resetRegs c g := rfl
@[simp] theorem State.resetWith_mem :
    (State.resetWith c g m).mem = Memory.placeWords [] c.base.toNat (m.take (memWords c)) := rfl
@[simp] theorem State.resetWith_lastReg : (State.resetWith c g m).lastReg = none := rfl
@[simp] theorem State.resetWith_lastMem : (State.resetWith c g m).lastMem = none := rfl
@[simp] theorem State.resetWith_status : (State.resetWith c g m).status = .running := rfl

end ResetWith

end Sys2Proof.Machine
end

