-- ==== Sys2Proof/Laws/Step.lean ====
section
/-! SUPPORT. What an address, a memory access, an instruction and a step can do, said once; later proofs cite these and
unfold nothing. -/

namespace Sys2Proof.Machine

/-! ### Addresses and memory accesses -/

/-- `valid(addr)` in arithmetic (R33). -/
theorem validAddr_iff (c : Config) (a : Word) :
    validAddr c a = true ↔ a.toNat % 4 = 0 ∧ c.base.toNat ≤ a.toNat ∧ a.toNat < memEnd c := by
  simp [validAddr, and_assoc]

/-- The parameters in arithmetic (R7). -/
theorem Config.wf_iff (c : Config) :
    c.wf = true ↔ c.base.toNat % 4 = 0 ∧ 1 ≤ c.instrWords ∧ memEnd c < 2 ^ 32 := by
  simp [Config.wf, memEnd, memWords, and_assoc]

/-- The whole word at a valid address lies inside memory. -/
theorem validAddr_word_end {c : Config} {a : Word} (hc : c.wf = true) (ha : validAddr c a = true) :
    a.toNat + 4 ≤ memEnd c := by
  obtain ⟨h1, h2, h3⟩ := (validAddr_iff c a).1 ha
  obtain ⟨hb, -, -⟩ := (Config.wf_iff c).1 hc
  simp only [memEnd] at h3 ⊢
  omega

/-- Two valid addresses are equal or four bytes apart. -/
theorem validAddr_disjoint {c : Config} {a b : Word} (ha : validAddr c a = true) (hb : validAddr c b = true)
    (h : a ≠ b) : b.toNat + 4 ≤ a.toNat ∨ a.toNat + 4 ≤ b.toNat := by
  obtain ⟨ha, -⟩ := (validAddr_iff c a).1 ha
  obtain ⟨hb, -⟩ := (validAddr_iff c b).1 hb
  have : a.toNat ≠ b.toNat := fun e => h (BitVec.eq_of_toNat_eq e)
  omega

theorem State.memRead_valid {s : State} {a : Word} (h : validAddr s.config a = true) :
    s.memRead a = some (s.mem.readWord a.toNat) := by
  simp [State.memRead, h]

theorem State.memRead_invalid {s : State} {a : Word} (h : validAddr s.config a = false) : s.memRead a = none := by
  simp [State.memRead, h]

theorem State.memRead_eq_some {s : State} {a v : Word} (h : s.memRead a = some v) :
    validAddr s.config a = true ∧ s.mem.readWord a.toNat = v := by
  simp only [State.memRead] at h
  split at h
  · rename_i hv
    exact ⟨hv, Option.some.inj h⟩
  · simp at h

theorem State.memRead_eq_none {s : State} {a : Word} (h : s.memRead a = none) : validAddr s.config a = false := by
  simp only [State.memRead] at h
  split at h
  · simp at h
  · rename_i hv
    simpa using hv

/-! ### One instruction -/

theorem exec_lw_of_memRead {rs rt : Reg} {imm : BitVec 16} {s : State} {v : Word}
    (h : s.memRead (effectiveAddress (s.readReg rs) imm) = some v) :
    exec (.lw rs rt imm) s = .next (s.finishReg rt v) := by
  simp [exec, execLw, h]

theorem exec_lw_of_invalid {rs rt : Reg} {imm : BitVec 16} {s : State}
    (h : validAddr s.config (effectiveAddress (s.readReg rs) imm) = false) :
    exec (.lw rs rt imm) s =
      .next (s.stopWith (.undefinedAccess .load (effectiveAddress (s.readReg rs) imm))) := by
  simp [exec, execLw, State.memRead_invalid h]

theorem exec_sw_of_valid {rs rt : Reg} {imm : BitVec 16} {s : State}
    (h : validAddr s.config (effectiveAddress (s.readReg rs) imm) = true) :
    exec (.sw rs rt imm) s =
      .next (s.commit none (some (effectiveAddress (s.readReg rs) imm, s.readReg rt)) s.nextPc) := by
  simp [exec, execSw, h]

theorem exec_sw_of_invalid {rs rt : Reg} {imm : BitVec 16} {s : State}
    (h : validAddr s.config (effectiveAddress (s.readReg rs) imm) = false) :
    exec (.sw rs rt imm) s =
      .next (s.stopWith (.undefinedAccess .store (effectiveAddress (s.readReg rs) imm))) := by
  simp [exec, execSw, h]

/-- Everything an instruction can do: it writes its one destination, or stores its one word, or changes nothing but the
`pc`, or stops on its one data access. -/
theorem exec_cases (i : Instr) (s : State) :
    (∃ r v npc, dest i = some r ∧ exec i s = .next (s.commit (some (r, v)) none npc)) ∨
    (∃ a v, dataAccess s i = some (.store, a) ∧ dest i = none ∧ validAddr s.config a = true ∧
      exec i s = .next (s.commit none (some (a, v)) s.nextPc)) ∨
    (∃ npc, dest i = none ∧ dataAccess s i = none ∧ exec i s = .next (s.commit none none npc)) ∨
    (∃ a, dataAccess s i = some (.load, a) ∧ validAddr s.config a = false ∧
      exec i s = .next (s.stopWith (.undefinedAccess .load a))) ∨
    (∃ a, dataAccess s i = some (.store, a) ∧ validAddr s.config a = false ∧
      exec i s = .next (s.stopWith (.undefinedAccess .store a))) := by
  cases i with
  | sll rs rt rd sh => exact .inl ⟨rd, _, _, rfl, rfl⟩
  | srl rs rt rd sh => exact .inl ⟨rd, _, _, rfl, rfl⟩
  | jr rs rt rd sh => exact .inr (.inr (.inl ⟨_, rfl, rfl, rfl⟩))
  | addu rs rt rd sh => exact .inl ⟨rd, _, _, rfl, rfl⟩
  | subu rs rt rd sh => exact .inl ⟨rd, _, _, rfl, rfl⟩
  | and rs rt rd sh => exact .inl ⟨rd, _, _, rfl, rfl⟩
  | or rs rt rd sh => exact .inl ⟨rd, _, _, rfl, rfl⟩
  | slt rs rt rd sh => exact .inl ⟨rd, _, _, rfl, rfl⟩
  | beq rs rt imm => exact .inr (.inr (.inl ⟨_, rfl, rfl, rfl⟩))
  | bne rs rt imm => exact .inr (.inr (.inl ⟨_, rfl, rfl, rfl⟩))
  | addiu rs rt imm => exact .inl ⟨rt, _, _, rfl, rfl⟩
  | andi rs rt imm => exact .inl ⟨rt, _, _, rfl, rfl⟩
  | ori rs rt imm => exact .inl ⟨rt, _, _, rfl, rfl⟩
  | lui rs rt imm => exact .inl ⟨rt, _, _, rfl, rfl⟩
  | lw rs rt imm =>
    cases h : s.memRead (effectiveAddress (s.readReg rs) imm) with
    | some v => exact .inl ⟨rt, v, s.nextPc, rfl, exec_lw_of_memRead h⟩
    | none =>
      have h := State.memRead_eq_none h
      exact .inr (.inr (.inr (.inl ⟨_, rfl, h, exec_lw_of_invalid h⟩)))
  | sw rs rt imm =>
    cases h : validAddr s.config (effectiveAddress (s.readReg rs) imm) with
    | true => exact .inr (.inl ⟨_, s.readReg rt, rfl, rfl, h, exec_sw_of_valid h⟩)
    | false => exact .inr (.inr (.inr (.inr ⟨_, rfl, h, exec_sw_of_invalid h⟩)))
  | j target => exact .inr (.inr (.inl ⟨_, rfl, rfl, rfl⟩))
  | jal target => exact .inl ⟨31, _, _, rfl, rfl⟩

/-! ### One step -/

theorem fetchInstr_ok {s : State} {w : Word} {i : Instr} (hw : s.memRead s.pc = some w) (hd : decode s.config.opcodes w = .ok i) :
    fetchInstr s = .ok i := by
  simp [fetchInstr, fetchWord, hw, hd]

/-- Everything a step can do (R20, R76, R102). -/
theorem step_cases (s : State) :
    (∃ st, s.status = .stopped st ∧ step s = .fault (.stopped st)) ∨
    (s.status = .running ∧ validAddr s.config s.pc = false ∧
      step s = .next (s.stopWith (.undefinedAccess .fetch s.pc))) ∨
    (∃ w k, s.status = .running ∧ s.memRead s.pc = some w ∧ decode s.config.opcodes w = .error k ∧
      step s = .next (s.stopWith (.decodeFailure k w))) ∨
    (∃ w i, s.status = .running ∧ s.memRead s.pc = some w ∧ decode s.config.opcodes w = .ok i ∧ step s = exec i s) := by
  cases hs : s.status with
  | stopped st => exact .inl ⟨st, rfl, by simp [step, issue, hs]⟩
  | running =>
    cases hw : s.memRead s.pc with
    | none =>
      exact .inr (.inl ⟨rfl, State.memRead_eq_none hw, by simp [step, issue, hs, fetchInstr, fetchWord, hw]⟩)
    | some w =>
      cases hd : decode s.config.opcodes w with
      | error k =>
        exact .inr (.inr (.inl ⟨w, k, rfl, rfl, hd, by simp [step, issue, hs, fetchInstr, fetchWord, hw, hd]⟩))
      | ok i =>
        exact .inr (.inr (.inr ⟨w, i, rfl, rfl, hd, by simp [step, issue, hs, fetchInstr, fetchWord, hw, hd]⟩))

end Sys2Proof.Machine
end

