-- ==== Sys2Proof/Tests/Slice0.lean ====
section
/-! SUPPORT. The model's own tests: well-formedness, one decoded word per instruction written out bit by bit, the step on
the vectors of spec/95_test_vectors.md (each test names its vector), and a witness for the hypotheses of every statement. -/

namespace Sys2Proof.Tests

open Sys2Proof Sys2Proof.Machine

/-! ### Helpers -/

/-- The state of an outcome that is a next state. -/
def nextOf (o : Host.Outcome State Fault Refusal) : Option State :=
  match o with
  | .next t => some t
  | .fault _ | .refused _ => none

theorem eq_next_of_nextOf {o : Host.Outcome State Fault Refusal} {t : State} (h : nextOf o = some t) : o = .next t := by
  cases o <;> simp_all [nextOf]

/-- The reset state with some registers, some memory words, and `w` at the `pc`. -/
def at_ (w : Word) (regs : List (Reg × Word)) (words : List (Nat × Word)) : State :=
  let s := regs.foldl (fun s p => s.writeReg p.1 p.2) State.reset
  { s with mem := words.foldl (fun m p => m.writeWord p.1 p.2) (s.mem.writeWord s.pc.toNat w) }

/-- After one step: a register, the indicators and the `pc`. -/
def regAfter (s : State) (r : Reg) : Option (Word × Option Reg × Option Word × Word) :=
  (nextOf (step s)).map (fun t => (t.readReg r, t.lastReg, t.lastMem, t.pc))

/-- After one step: the indicators, the `pc` and the status. -/
def flowAfter (s : State) : Option (Option Reg × Option Word × Word × Status) :=
  (nextOf (step s)).map (fun t => (t.lastReg, t.lastMem, t.pc, t.status))

/-! ### Well-formedness (R50, R55): each check, refused and passed -/

/-- A table other than the default: `srl` and `sll` have each other's functs, `j` and `lw` each other's opcodes. -/
def swapped : OpcodeTable := { OpcodeTable.mips with sll := 0x02#6, srl := 0x00#6, j := 0x23#6, lw := 0x02#6 }

theorem test_wf_refuses_zero_sll : (Instr.sll 0 0 0 0#5).wf .mips = false ∧ (Instr.srl 0 0 0 0#5).wf swapped = false := by
  decide
theorem test_wf_admits_sll : (Instr.sll 0 1 1 0#5).wf .mips = true ∧ (Instr.sll 0 0 0 1#5).wf .mips = true ∧
    (Instr.sll 0 0 0 0#5).wf swapped = true := by decide
theorem test_table_wf_admits : OpcodeTable.mips.wf = true ∧ swapped.wf = true := by decide
/-- Two functs alike, two opcodes alike, an opcode of one format given to the other, and the R format's opcode. -/
theorem test_table_wf_refuses : ({ OpcodeTable.mips with srl := 0x00#6 } : OpcodeTable).wf = false ∧
    ({ OpcodeTable.mips with sw := 0x23#6 } : OpcodeTable).wf = false ∧
    ({ OpcodeTable.mips with j := 0x23#6 } : OpcodeTable).wf = false ∧
    ({ OpcodeTable.mips with beq := 0x00#6 } : OpcodeTable).wf = false := by decide

/-! ### Decoding, each word written out from R51 to R53 and R55 -/

theorem test_decode_sll : decode .mips (0b000000#6 ++ 0b00000#5 ++ 0b00010#5 ++ 0b00011#5 ++ 0b11111#5 ++ 0b000000#6) =
    .ok (.sll 0 2 3 31#5) := by decide
theorem test_decode_srl : decode .mips (0b000000#6 ++ 0b00000#5 ++ 0b00010#5 ++ 0b00011#5 ++ 0b00100#5 ++ 0b000010#6) =
    .ok (.srl 0 2 3 4#5) := by decide
theorem test_decode_jr : decode .mips (0b000000#6 ++ 0b11111#5 ++ 0b00000#5 ++ 0b00000#5 ++ 0b00000#5 ++ 0b001000#6) =
    .ok (.jr 31 0 0 0#5) := by decide
theorem test_decode_addu : decode .mips (0b000000#6 ++ 0b00001#5 ++ 0b00010#5 ++ 0b00011#5 ++ 0b00010#5 ++ 0b100001#6) =
    .ok (.addu 1 2 3 2#5) := by decide
theorem test_decode_subu : decode .mips (0b000000#6 ++ 0b00001#5 ++ 0b00010#5 ++ 0b00011#5 ++ 0b00000#5 ++ 0b100011#6) =
    .ok (.subu 1 2 3 0#5) := by decide
theorem test_decode_and : decode .mips (0b000000#6 ++ 0b00001#5 ++ 0b00010#5 ++ 0b00011#5 ++ 0b00000#5 ++ 0b100100#6) =
    .ok (.and 1 2 3 0#5) := by decide
theorem test_decode_or : decode .mips (0b000000#6 ++ 0b00001#5 ++ 0b00010#5 ++ 0b00011#5 ++ 0b00000#5 ++ 0b100101#6) =
    .ok (.or 1 2 3 0#5) := by decide
theorem test_decode_slt : decode .mips (0b000000#6 ++ 0b00001#5 ++ 0b00010#5 ++ 0b00011#5 ++ 0b00000#5 ++ 0b101010#6) =
    .ok (.slt 1 2 3 0#5) := by decide
theorem test_decode_beq : decode .mips (0b000100#6 ++ 0b00001#5 ++ 0b00010#5 ++ 0b0000000000000011#16) =
    .ok (.beq 1 2 3#16) := by decide
theorem test_decode_bne : decode .mips (0b000101#6 ++ 0b00001#5 ++ 0b00010#5 ++ 0b1000000000000000#16) =
    .ok (.bne 1 2 0x8000#16) := by decide
theorem test_decode_addiu : decode .mips (0b001001#6 ++ 0b00001#5 ++ 0b00011#5 ++ 0b1111111111111111#16) =
    .ok (.addiu 1 3 0xFFFF#16) := by decide
theorem test_decode_andi : decode .mips (0b001100#6 ++ 0b00001#5 ++ 0b00011#5 ++ 0b1000000000000000#16) =
    .ok (.andi 1 3 0x8000#16) := by decide
theorem test_decode_ori : decode .mips (0b001101#6 ++ 0b00001#5 ++ 0b00011#5 ++ 0b1000000000000000#16) =
    .ok (.ori 1 3 0x8000#16) := by decide
theorem test_decode_lui : decode .mips (0b001111#6 ++ 0b00000#5 ++ 0b00011#5 ++ 0b1000000000000000#16) =
    .ok (.lui 0 3 0x8000#16) := by decide
theorem test_decode_lw : decode .mips (0b100011#6 ++ 0b00101#5 ++ 0b00100#5 ++ 0b0000000000000010#16) =
    .ok (.lw 5 4 2#16) := by decide
theorem test_decode_sw : decode .mips (0b101011#6 ++ 0b11101#5 ++ 0b00001#5 ++ 0b1111111111111100#16) =
    .ok (.sw 29 1 0xFFFC#16) := by decide
theorem test_decode_j : decode .mips (0b000010#6 ++ 0b00000100000000000000000110#26) = .ok (.j 0x0100006#26) := by decide
theorem test_decode_jal : decode .mips (0b000011#6 ++ 0b00000100000000000000000100#26) = .ok (.jal 0x0100004#26) := by decide

/-- Vectors S1 to S5, and A25: the zero word is tested before the opcode. -/
theorem test_decode_rejects :
    decode .mips 0x00000000#32 = .error .zeroWord ∧ decode .mips 0xFC000000#32 = .error .unknownOpcode ∧
    decode .mips 0x0000000C#32 = .error .unknownFunct ∧ decode .mips 0x20010005#32 = .error .unknownOpcode ∧
    decode .mips 0x00221820#32 = .error .unknownFunct ∧ decode .mips 0x00000040#32 = .ok (.sll 0 0 0 1#5) := by decide

/-- R8: the decoder reads the numbers of the table it is given. -/
theorem test_decode_swapped : decode swapped 0x00021FC0#32 = .ok (.srl 0 2 3 31#5) ∧
    decode swapped 0x08A40000#32 = .ok (.lw 5 4 0#16) ∧ decode swapped 0x8C100004#32 = .ok (.j 0x0100004#26) := by decide
/-- R8: a step decodes with the state's own table; `addu` and `subu` have each other's functs here. -/
theorem test_step_swapped :
    regAfter { at_ 0x00221821#32 [(1, 7#32), (2, 5#32)] [] with
      config := { Config.test with opcodes := { OpcodeTable.mips with addu := 0x23#6, subu := 0x21#6 } } } 3 =
    some (2#32, some 3, none, 0x00400004#32) := by decide

/-- The match values of spec/opcode_table.json, every field zero: each row but `sll`'s (whose word is the terminator)
decodes to its instruction. -/
theorem test_table_words :
    decodeTableWord 32 0x00000000 = none ∧ decodeTableWord 32 0x00000002 = some (.srl 0 0 0 0#5) ∧
    decodeTableWord 32 0x00000008 = some (.jr 0 0 0 0#5) ∧ decodeTableWord 32 0x00000021 = some (.addu 0 0 0 0#5) ∧
    decodeTableWord 32 0x00000023 = some (.subu 0 0 0 0#5) ∧ decodeTableWord 32 0x00000024 = some (.and 0 0 0 0#5) ∧
    decodeTableWord 32 0x00000025 = some (.or 0 0 0 0#5) ∧ decodeTableWord 32 0x0000002A = some (.slt 0 0 0 0#5) ∧
    decodeTableWord 32 0x10000000 = some (.beq 0 0 0#16) ∧ decodeTableWord 32 0x14000000 = some (.bne 0 0 0#16) ∧
    decodeTableWord 32 0x24000000 = some (.addiu 0 0 0#16) ∧ decodeTableWord 32 0x30000000 = some (.andi 0 0 0#16) ∧
    decodeTableWord 32 0x34000000 = some (.ori 0 0 0#16) ∧ decodeTableWord 32 0x3C000000 = some (.lui 0 0 0#16) ∧
    decodeTableWord 32 0x8C000000 = some (.lw 0 0 0#16) ∧ decodeTableWord 32 0xAC000000 = some (.sw 0 0 0#16) ∧
    decodeTableWord 32 0x08000000 = some (.j 0#26) ∧ decodeTableWord 32 0x0C000000 = some (.jal 0#26) := by decide

/-! ### One step, on the vectors of 95_test_vectors.md -/

/-- A1. -/
theorem test_addu_wraps : regAfter (at_ 0x00221821#32 [(1, 0xFFFFFFFF#32), (2, 1#32)] []) 3 =
    some (0x00000000#32, some 3, none, 0x00400004#32) := by decide
/-- A22: both sources read the old value of the destination. -/
theorem test_addu_source_is_dest : regAfter (at_ 0x00210821#32 [(1, 0x40000000#32)] []) 1 =
    some (0x80000000#32, some 1, none, 0x00400004#32) := by decide
/-- A3. -/
theorem test_subu_borrows : regAfter (at_ 0x00221823#32 [(1, 0#32), (2, 1#32)] []) 3 =
    some (0xFFFFFFFF#32, some 3, none, 0x00400004#32) := by decide
/-- A5. -/
theorem test_and : regAfter (at_ 0x00221824#32 [(1, 0xF0F0F0F0#32), (2, 0x0FF00FF0#32)] []) 3 =
    some (0x00F000F0#32, some 3, none, 0x00400004#32) := by decide
/-- A6. -/
theorem test_or : regAfter (at_ 0x00221825#32 [(1, 0xF0F0F0F0#32), (2, 0x0F0F0F0F#32)] []) 3 =
    some (0xFFFFFFFF#32, some 3, none, 0x00400004#32) := by decide
/-- A7. -/
theorem test_slt_minus_one : regAfter (at_ 0x0022182A#32 [(1, 0xFFFFFFFF#32), (2, 1#32)] []) 3 =
    some (1#32, some 3, none, 0x00400004#32) := by decide
/-- A8. -/
theorem test_slt_not_less : regAfter (at_ 0x0022182A#32 [(1, 1#32), (2, 0xFFFFFFFF#32)] []) 3 =
    some (0#32, some 3, none, 0x00400004#32) := by decide
/-- A11. -/
theorem test_sll_loses_top : regAfter (at_ 0x00021840#32 [(2, 0x80000001#32)] []) 3 =
    some (0x00000002#32, some 3, none, 0x00400004#32) := by decide
/-- A13. -/
theorem test_srl_is_logical : regAfter (at_ 0x00021902#32 [(2, 0xFFFFFFFF#32)] []) 3 =
    some (0x0FFFFFFF#32, some 3, none, 0x00400004#32) := by decide
/-- A17. -/
theorem test_addiu_wraps : regAfter (at_ 0x24237FFF#32 [(1, 0x7FFFFFFF#32)] []) 3 =
    some (0x80007FFE#32, some 3, none, 0x00400004#32) := by decide
/-- A23, its first step: register 0 is not hardwired. -/
theorem test_addiu_writes_zero : regAfter (at_ 0x24000005#32 [] []) 0 =
    some (5#32, some 0, none, 0x00400004#32) := by decide
/-- A18. -/
theorem test_andi_zero_extends : regAfter (at_ 0x30238000#32 [(1, 0xFFFFFFFF#32)] []) 3 =
    some (0x00008000#32, some 3, none, 0x00400004#32) := by decide
/-- A19. -/
theorem test_ori_zero_extends : regAfter (at_ 0x34238000#32 [(1, 0#32)] []) 3 =
    some (0x00008000#32, some 3, none, 0x00400004#32) := by decide
/-- A21. -/
theorem test_lui_low_half_zero : regAfter (at_ 0x3C03FFFF#32 [] []) 3 =
    some (0xFFFF0000#32, some 3, none, 0x00400004#32) := by decide
/-- L2: the address uses the old base. -/
theorem test_lw_base_is_dest : regAfter (at_ 0x8CA50000#32 [(5, 0x00401000#32)] [(0x00401000, 0x00401008#32)]) 5 =
    some (0x00401008#32, some 5, none, 0x00400004#32) := by decide
/-- L4: the reset stack pointer is past memory. -/
theorem test_lw_past_end : flowAfter (at_ 0x8FA40000#32 [] []) =
    some (none, none, 0x00400000#32, .stopped ⟨0x00400000#32, .undefinedAccess .load 0x00404000#32⟩) := by decide
/-- L6. -/
theorem test_sw_last_word : (nextOf (step (at_ 0xAFA1FFFC#32 [(1, 0x1234ABCD#32)] []))).map
    (fun t => (t.memRead 0x00403FFC#32, t.lastReg, t.lastMem)) =
    some (some 0x1234ABCD#32, none, some 0x00403FFC#32) := by decide
/-- L7. -/
theorem test_sw_past_end : flowAfter (at_ 0xAFA10000#32 [] []) =
    some (none, none, 0x00400000#32, .stopped ⟨0x00400000#32, .undefinedAccess .store 0x00404000#32⟩) := by decide
/-- C1. -/
theorem test_beq_taken : flowAfter (at_ 0x10220003#32 [(1, 7#32), (2, 7#32)] []) =
    some (none, none, 0x00400010#32, .running) := by decide
/-- W4. -/
theorem test_beq_to_itself : flowAfter (at_ 0x1022FFFF#32 [(1, 7#32), (2, 7#32)] []) =
    some (none, none, 0x00400000#32, .running) := by decide
/-- C3. -/
theorem test_bne_far_back : flowAfter (at_ 0x14228000#32 [(1, 7#32), (2, 8#32)] []) =
    some (none, none, 0x003E0004#32, .running) := by decide
/-- C4. -/
theorem test_bne_same_register : flowAfter (at_ 0x14210005#32 [(1, 7#32)] []) =
    some (none, none, 0x00400004#32, .running) := by decide
/-- C5, from `BASE`. -/
theorem test_j : flowAfter (at_ 0x08100006#32 [] []) = some (none, none, 0x00400018#32, .running) := by decide
/-- C6: the region of `pc + 4`, not of `pc`. -/
theorem test_j_region : (nextOf (exec (.j 0#26) { State.reset with pc := 0x0FFFFFFC#32 })).map (fun t => t.pc) =
    some 0x10000000#32 := by decide
/-- C7. -/
theorem test_jal_links : regAfter (at_ 0x0C100004#32 [] []) 31 =
    some (0x00400004#32, some 31, none, 0x00400010#32) := by decide
/-- C9: the jump to a misaligned address completes, and the next step stops at fetch. -/
theorem test_jr_misaligned : flowAfter (at_ 0x00200008#32 [(1, 0x00400006#32)] []) =
    some (none, none, 0x00400006#32, .running) ∧
    flowAfter { State.reset with pc := 0x00400006#32 } =
    some (none, none, 0x00400006#32, .stopped ⟨0x00400006#32, .undefinedAccess .fetch 0x00400006#32⟩) := by decide

/-- I1 and I2: the reset state, and the run from it with nothing placed (log entry 8). -/
theorem test_reset : State.reset.pc = 0x00400000#32 ∧ State.reset.readReg 0 = 0#32 ∧
    State.reset.readReg 29 = 0x00404000#32 ∧ State.reset.status = .running ∧
    flowAfter State.reset =
      some (none, none, 0x00400000#32, .stopped ⟨0x00400000#32, .decodeFailure .zeroWord 0#32⟩) := by decide

/-- The host's two questions on one word: `withFetchWord` places it, and the very next step runs it. -/
theorem test_withFetchWord : regAfter (State.reset.withFetchWord 32 0x2423FFFF) 3 =
    some (0xFFFFFFFF#32, some 3, none, 0x00400004#32) := by decide

/-- The memory list stays canonical: storing zero removes the cells. -/
theorem test_store_zero_removes : ((Memory.writeWord [] 8 0x01020304#32).writeWord 8 0#32) = [] ∧
    Memory.writeWord [] 8 0x01020304#32 = [(8, 4#8), (9, 3#8), (10, 2#8), (11, 1#8)] := by decide

/-! ### Witnesses: for every statement with hypotheses, values that meet all of them together -/

/-- A sound running state: registers 1, 2 and 5 set, a word of data, `addu $3, $1, $2` at the `pc`. -/
def sound : State := at_ 0x00221821#32 [(1, 5#32), (2, 7#32), (5, 0x00401000#32)] [(0x00401000, 0x2A#32)]

/-- `sound` after `sw $1, 0($5)`. -/
def stored : State := sound.commit none (some (0x00401000#32, 5#32)) 0x00400004#32

/-- `sound` stopped on a misaligned load. -/
def halted : State := sound.stopWith (.undefinedAccess .load 0x00401002#32)

theorem witness_DecodeOfEncode : OpcodeTable.mips.wf = true ∧ swapped.wf = true ∧
    (Instr.sll 0 0 0 31#5).wf .mips = true ∧ (Instr.lui 31 31 0xFFFF#16).wf swapped = true := by decide
theorem witness_EncodeOfDecode : decode .mips 0x002218A1#32 = .ok (.addu 1 2 3 2#5) := by decide
/-- A word in each class of the three equivalences, and one in none. -/
theorem witness_DecodeRejectsExactly :
    (0x0000003F#32 : Word).extractLsb' 26 6 = 0x00#6 ∧ decode .mips 0x0000003F#32 = .error .unknownFunct ∧
    decode .mips 0x04000000#32 = .error .unknownOpcode ∧ decode .mips 0x0#32 = .error .zeroWord ∧
    decode .mips 0xAFFFFFFF#32 = .ok (.sw 31 31 0xFFFF#16) := by decide

theorem witness_AdduAdds : (0x00221821#32 : Word) ≠ 0#32 ∧ (0x00221821#32 : Word).extractLsb' 26 6 = 0x00#6 ∧
    (0x00221821#32 : Word).extractLsb' 0 6 = 0x21#6 := by decide
theorem witness_SubuSubtracts : (0x00221823#32 : Word) ≠ 0#32 ∧ (0x00221823#32 : Word).extractLsb' 26 6 = 0x00#6 ∧
    (0x00221823#32 : Word).extractLsb' 0 6 = 0x23#6 := by decide
theorem witness_AndMasks : (0x00221824#32 : Word) ≠ 0#32 ∧ (0x00221824#32 : Word).extractLsb' 26 6 = 0x00#6 ∧
    (0x00221824#32 : Word).extractLsb' 0 6 = 0x24#6 := by decide
theorem witness_OrJoins : (0x00221825#32 : Word) ≠ 0#32 ∧ (0x00221825#32 : Word).extractLsb' 26 6 = 0x00#6 ∧
    (0x00221825#32 : Word).extractLsb' 0 6 = 0x25#6 := by decide
theorem witness_SltComparesSigned : (0x0022182A#32 : Word) ≠ 0#32 ∧ (0x0022182A#32 : Word).extractLsb' 26 6 = 0x00#6 ∧
    (0x0022182A#32 : Word).extractLsb' 0 6 = 0x2A#6 := by decide
theorem witness_SllShiftsLeft : (0x00021840#32 : Word) ≠ 0#32 ∧ (0x00021840#32 : Word).extractLsb' 26 6 = 0x00#6 ∧
    (0x00021840#32 : Word).extractLsb' 0 6 = 0x00#6 := by decide
theorem witness_SrlShiftsRight : (0x00021902#32 : Word) ≠ 0#32 ∧ (0x00021902#32 : Word).extractLsb' 26 6 = 0x00#6 ∧
    (0x00021902#32 : Word).extractLsb' 0 6 = 0x02#6 := by decide
theorem witness_JrJumpsToRegister_decode : (0x03E00008#32 : Word) ≠ 0#32 ∧ (0x03E00008#32 : Word).extractLsb' 26 6 = 0x00#6 ∧
    (0x03E00008#32 : Word).extractLsb' 0 6 = 0x08#6 := by decide
theorem witness_AddiuAddsImmediate : (0x2423FFFF#32 : Word).extractLsb' 26 6 = 0x09#6 := by decide
theorem witness_AndiMasksImmediate : (0x30238000#32 : Word).extractLsb' 26 6 = 0x0C#6 := by decide
theorem witness_OriJoinsImmediate : (0x34238000#32 : Word).extractLsb' 26 6 = 0x0D#6 := by decide
theorem witness_LuiLoadsUpper : (0x3C038000#32 : Word).extractLsb' 26 6 = 0x0F#6 := by decide
theorem witness_LwLoadsOrStops_decode : (0x8CA40000#32 : Word).extractLsb' 26 6 = 0x23#6 := by decide
theorem witness_SwStoresOrStops_decode : (0xACA40000#32 : Word).extractLsb' 26 6 = 0x2B#6 := by decide
theorem witness_BeqBranches_decode : (0x1022FFFF#32 : Word).extractLsb' 26 6 = 0x04#6 := by decide
theorem witness_BneBranches : (0x1420FFFD#32 : Word).extractLsb' 26 6 = 0x05#6 := by decide
theorem witness_JumpGoesToTarget : (0x08100006#32 : Word).extractLsb' 26 6 = 0x02#6 := by decide
theorem witness_JalLinks : (0x0C100004#32 : Word).extractLsb' 26 6 = 0x03#6 := by decide

/-- The boundary addresses of memory: the first and the last word are valid; one word below, one past the end, and a
misaligned address inside are not. -/
theorem witness_LwSwAddresses :
    validAddr sound.config 0x00400000#32 = true ∧ validAddr sound.config 0x00403FFC#32 = true ∧
    validAddr sound.config 0x003FFFFC#32 = false ∧ validAddr sound.config 0x00404000#32 = false ∧
    validAddr sound.config 0x00403FFE#32 = false ∧ validAddr sound.config 0xFFFFFFFC#32 = false := by decide
theorem witness_LwLoadsOrStops : 0x00401000#32 = sound.regs[(5 : Reg)] + (0#16).signExtend 32 ∧
    0x00401002#32 = sound.regs[(5 : Reg)] + (2#16).signExtend 32 ∧
    validAddr sound.config 0x00401000#32 = true ∧ validAddr sound.config 0x00401002#32 = false := by decide
theorem witness_SwStoresOrStops : 0x00403FFC#32 = sound.regs[(29 : Reg)] + (0xFFFC#16).signExtend 32 ∧
    0x00404000#32 = sound.regs[(29 : Reg)] + (0#16).signExtend 32 ∧
    validAddr sound.config 0x00403FFC#32 = true ∧ validAddr sound.config 0x00404000#32 = false := by decide
theorem witness_BeqBranches : sound.regs[(6 : Reg)] = sound.regs[(7 : Reg)] := by decide
theorem witness_JrJumpsToRegister : sound.status = .running ∧ validAddr sound.config sound.regs[(1 : Reg)] = false := by
  decide

theorem witness_FrameRFormat : exec (.addu 1 2 3 0#5) sound = .next (sound.finishReg 3 12#32) :=
  eq_next_of_nextOf (by decide)
theorem witness_FrameIFormat : exec (.lw 5 4 0#16) sound = .next (sound.finishReg 4 0x2A#32) ∧
    exec (.lw 5 4 2#16) sound = .next halted := ⟨eq_next_of_nextOf (by decide), eq_next_of_nextOf (by decide)⟩
theorem witness_FrameTransfers : exec (.beq 1 2 3#16) sound = .next (sound.finishJump 0x00400004#32) ∧
    exec (.jal 0x0100004#26) sound = .next (sound.commit (some (31, 0x00400004#32)) none 0x00400010#32) :=
  ⟨eq_next_of_nextOf (by decide), eq_next_of_nextOf (by decide)⟩
theorem sw_sound : exec (.sw 5 1 0#16) sound = .next stored := eq_next_of_nextOf (by decide)
theorem witness_FrameStore : sound.mem.wf = true ∧ exec (.sw 5 1 0#16) sound = .next stored ∧
    validAddr sound.config (effectiveAddress (sound.readReg 5) 0#16) = true ∧
    validAddr sound.config (effectiveAddress (sound.readReg 5) 2#16) = false :=
  ⟨by decide, sw_sound, by decide, by decide⟩

theorem witness_RegisterUse : (2 : Reg) ∉ sources (.addiu 1 2 3#16) ∧ dest (.addiu 1 2 3#16) ≠ some 1 ∧
    exec (.addiu 1 2 3#16) sound = .next (sound.finishReg 2 8#32) :=
  ⟨by decide, by decide, eq_next_of_nextOf (by decide)⟩
theorem step_sound : step sound = .next (sound.finishReg 3 12#32) := eq_next_of_nextOf (by decide)
theorem witness_OneRegisterWritePerStep : step sound = .next (sound.finishReg 3 12#32) ∧
    (sound.finishReg 3 12#32).readReg 3 ≠ sound.readReg 3 := ⟨step_sound, by decide⟩
/-- A step that stores: `sw $1, 0($5)` at the `pc`. -/
theorem witness_IndicatorsNameEveryChange :
    (at_ 0xACA10000#32 [(1, 5#32), (5, 0x00401000#32)] []).mem.wf = true ∧
    (nextOf (step (at_ 0xACA10000#32 [(1, 5#32), (5, 0x00401000#32)] []))).map (fun t => t.lastMem) =
      some (some 0x00401000#32) := by decide
theorem witness_IndicatorsOfInstruction : sound.status = .running ∧ exec (.sw 5 1 0#16) sound = .next stored ∧
    stored.status = .running ∧ dataAccess sound (.sw 5 1 0#16) = some (.store, 0x00401000#32) :=
  ⟨by decide, sw_sound, by decide, by decide⟩

theorem witness_MemReadByIndex : sound.config.wf = true ∧
    sound.memRead 0x00401000#32 = some 0x2A#32 ∧ sound.memRead 0x00401001#32 = none := by decide
theorem witness_MemWriteOneWord : sound.config.wf = true ∧ sound.mem.wf = true ∧
    0x00401000#32 = sound.regs[(5 : Reg)] + (0#16).signExtend 32 ∧ exec (.sw 5 1 0#16) sound = .next stored ∧
    validAddr sound.config 0x00401000#32 = true := ⟨by decide, by decide, by decide, sw_sound, by decide⟩
theorem witness_MemWriteOneWord_stop : exec (.sw 5 1 2#16) sound =
    .next (sound.stopWith (.undefinedAccess .store 0x00401002#32)) ∧
    validAddr sound.config 0x00401002#32 = false := ⟨eq_next_of_nextOf (by decide), by decide⟩
theorem witness_LoadAfterStore : sound.mem.wf = true ∧ exec (.sw 5 1 0#16) sound = .next stored ∧
    validAddr sound.config (effectiveAddress (sound.readReg 5) 0#16) = true ∧
    validAddr sound.config (effectiveAddress (sound.readReg 5) 4#16) = true :=
  ⟨by decide, sw_sound, by decide, by decide⟩
/-- The second form: `lw $5, 0($5)` overwrites its base, and the store takes the address from register 6. -/
theorem witness_LoadStoreRoundTrip : sound.mem.wf = true ∧
    validAddr sound.config (effectiveAddress (sound.readReg 5) 0#16) = true ∧
    exec (.lw 5 4 0#16) sound = .next (sound.finishReg 4 0x2A#32) ∧
    effectiveAddress ((sound.finishReg 4 0x2A#32).readReg 5) 0#16 = effectiveAddress (sound.readReg 5) 0#16 ∧
    exec (.lw 5 5 0#16) (sound.writeReg 6 0x00401000#32) =
      .next ((sound.writeReg 6 0x00401000#32).finishReg 5 0x2A#32) ∧
    effectiveAddress (((sound.writeReg 6 0x00401000#32).finishReg 5 0x2A#32).readReg 6) 0#16 =
      effectiveAddress ((sound.writeReg 6 0x00401000#32).readReg 5) 0#16 :=
  ⟨by decide, by decide, eq_next_of_nextOf (by decide), by decide, eq_next_of_nextOf (by decide), by decide⟩
/-- Stored words that decode (`addiu $3, $0, 99`, vector L8) and that do not (5). -/
theorem witness_FetchAfterStore : sound.mem.wf = true ∧
    validAddr sound.config (effectiveAddress (sound.readReg 5) 0#16) = true ∧ exec (.sw 5 1 0#16) sound = .next stored ∧
    ({ stored with pc := 0x00401000#32 } : State).status = .running ∧
    0x00401000#32 = effectiveAddress (sound.readReg 5) 0#16 ∧
    decode sound.config.opcodes (sound.readReg 1) = .error .unknownFunct ∧
    decode sound.config.opcodes ((sound.writeReg 1 0x24030063#32).readReg 1) = .ok (.addiu 0 3 99#16) :=
  ⟨by decide, by decide, sw_sound, by decide, by decide, by decide, by decide⟩

theorem witness_StepRunsDecodedInstr : sound.status = .running ∧ sound.memRead sound.pc = some 0x00221821#32 ∧
    decode .mips 0x00221821#32 = .ok (.addu 1 2 3 0#5) := by decide
/-- A `pc` one word past the end, and a misaligned one. -/
theorem witness_BadPcStops : sound.status = .running ∧ validAddr sound.config 0x00404000#32 = false ∧
    validAddr sound.config 0x00400002#32 = false := by decide
theorem witness_BadWordStops : (at_ 0xFC000000#32 [] []).status = .running ∧
    (at_ 0xFC000000#32 [] []).memRead (at_ 0xFC000000#32 [] []).pc = some 0xFC000000#32 ∧
    decode .mips 0xFC000000#32 = .error .unknownOpcode := by decide
theorem witness_ZeroWordHalts : State.reset.status = .running ∧ State.reset.memRead State.reset.pc = some 0#32 := by
  decide
/-- Each way a running step can end: it completes; and it stops on its `pc`, its word, and its data access. -/
theorem witness_StopsExactly : sound.status = .running ∧ (flowAfter sound).map (fun x => x.2.2.2) = some .running ∧
    flowAfter { sound with pc := 2#32 } =
      some (none, none, 2#32, .stopped ⟨2#32, .undefinedAccess .fetch 2#32⟩) ∧
    flowAfter (at_ 0x20010005#32 [] []) =
      some (none, none, 0x00400000#32, .stopped ⟨0x00400000#32, .decodeFailure .unknownOpcode 0x20010005#32⟩) ∧
    flowAfter (at_ 0x8C000000#32 [] []) =
      some (none, none, 0x00400000#32, .stopped ⟨0x00400000#32, .undefinedAccess .load 0#32⟩) := by decide
theorem witness_StoppedForEver :
    halted.status = .stopped ⟨0x00400000#32, .undefinedAccess .load 0x00401002#32⟩ := by decide
theorem witness_EveryInstructionAnswers : dataAccess sound (.jr 1 0 0 0#5) = none := by decide
/-- Each transfer with its target; targets that hold a word that decodes (`BASE`) or one that does not
(`0x00400008`), and an invalid one (register 1). -/
theorem witness_NoDelaySlot : sound.status = .running ∧ 5#32 = sound.readReg 1 ∧
    0x00400008#32 = (sound.pc + 4#32) + (if sound.readReg 1 = sound.readReg 1 then (1#16).signExtend 32 <<< 2 else 0#32) ∧
    0x00400004#32 = (sound.pc + 4#32) + (if sound.readReg 1 ≠ sound.readReg 1 then (1#16).signExtend 32 <<< 2 else 0#32) ∧
    0x00400000#32 = jumpTarget sound.pc 0x0100000#26 ∧
    sound.memRead 0x00400000#32 = some 0x00221821#32 ∧
    decode sound.config.opcodes 0x00221821#32 = .ok (.addu 1 2 3 0#5) ∧
    sound.memRead 0x00400008#32 = some 0#32 ∧ decode sound.config.opcodes 0#32 = .error .zeroWord ∧
    validAddr sound.config 5#32 = false := by decide
theorem witness_PcAlignment : exec (.jr 1 0 0 0#5) sound = .next (sound.finishJump 5#32) ∧
    exec (.beq 1 1 1#16) sound = .next (sound.finishJump 0x00400008#32) ∧
    exec (.j 1#26) sound = .next (sound.finishJump 4#32) :=
  ⟨eq_next_of_nextOf (by decide), eq_next_of_nextOf (by decide), eq_next_of_nextOf (by decide)⟩

/-- The test configuration and the smallest one R7 allows. -/
theorem witness_ResetState : Config.test.wf = true ∧ (Config.wf ⟨0#32, 1, 0, .mips⟩) = true ∧
    (0 : Nat) < [0x24010005#32].length ∧ 0 < Config.test.instrWords + Config.test.dataWords := by decide
/-- A data segment of no words is allowed. -/
theorem witness_InvAtEveryReset : Config.test.wf = true ∧ (Config.wf ⟨0x00400000#32, 1024, 0, .mips⟩) = true := by decide
theorem witness_StepKeepsInv : sound.Inv ∧ step sound = .next (sound.finishReg 3 12#32) := by
  refine ⟨⟨by decide, by decide, by decide, ?_, .inl rfl, ?_⟩, step_sound⟩
  · intro a h
    cases h
  · intro st h
    cases h
/-- A program that fits the smallest configuration, and one that does not. -/
theorem witness_ProgramIsLoaded : (Config.wf ⟨0#32, 1, 2, .mips⟩) = true ∧ [0x24010005#32].length ≤ 1 ∧
    [0x24010005#32, 0#32].length > 1 ∧ (1 : Nat) < [7#32, 8#32, 9#32].length := by decide
theorem witness_PlacedWordRuns : sound.mem.wf = true ∧ validAddr sound.config sound.pc = true ∧
    decode .mips 0x2423FFFF#32 = .ok (.addiu 1 3 0xFFFF#16) ∧ decode .mips 0x0000000C#32 = .error .unknownFunct := by decide
/-- A step that completes and one that stops. -/
theorem witness_RequestReports : step sound = .next (sound.finishReg 3 12#32) ∧
    (sound.finishReg 3 12#32).status = .running ∧
    step State.reset = .next (State.reset.stopWith (.decodeFailure .zeroWord 0#32)) :=
  ⟨step_sound, by decide, eq_next_of_nextOf (by decide)⟩
theorem witness_InspectionReads : sound.config.wf = true ∧ validAddr sound.config 0x00401000#32 = true ∧
    validAddr sound.config 0x00401002#32 = false := by decide
/-- Words selected by a number of the swapped table, and one no number selects. -/
theorem witness_DecodeFollowsTable : swapped.wf = true ∧ (0x00021FC0#32 : Word) ≠ 0#32 ∧
    (0x00021FC0#32 : Word).extractLsb' 26 6 = 0x00#6 ∧ (0x00021FC0#32 : Word).extractLsb' 0 6 = swapped.rFunct .srl ∧
    (0x08A40000#32 : Word).extractLsb' 26 6 = swapped.iOpcode .lw ∧
    (0x8C100004#32 : Word).extractLsb' 26 6 = swapped.jOpcode .j ∧
    decode swapped 0xFC000000#32 = .error .unknownOpcode ∧ decode swapped 0x0000000C#32 = .error .unknownFunct := by decide

end Sys2Proof.Tests
end

section
/-! PROOFS. The decoder as a function of `OPCODE_TABLE`: each way decoding fails, and the statement DecodeFollowsTable. -/

namespace Sys2Proof

section DecodeFailures
variable {t : OpcodeTable} {w : Word}

/-- A failing decode names its reason (R50): the three classes of words no number of the table selects. -/
theorem decode_error_cases {e : DecodeFailure} (h : decode t w = .error e) :
    (e = .zeroWord ∧ w = 0#32) ∨
    (e = .unknownFunct ∧ w ≠ 0#32 ∧ opcodeField w = rOpcode ∧ ∀ op, functField w ≠ t.rFunct op) ∨
    (e = .unknownOpcode ∧ opcodeField w ≠ rOpcode ∧ (∀ op, opcodeField w ≠ t.jOpcode op) ∧
      ∀ op, opcodeField w ≠ t.iOpcode op) := by
  obtain ⟨h0, hd⟩ | ⟨h0, ho, hf, hd⟩ | ⟨_, -, -, -, hd⟩ | ⟨_, -, -, hd⟩ | ⟨_, -, -, -, hd⟩ | ⟨ho, hj, hi, hd⟩ :=
    decode_cases t w <;> cases hd.symm.trans h
  · exact .inl ⟨rfl, h0⟩
  · exact .inr (.inl ⟨rfl, h0, ho, opOfFunct_eq_none.1 hf⟩)
  · exact .inr (.inr ⟨rfl, ho, jOpOfOpcode_eq_none.1 hj, iOpOfOpcode_eq_none.1 hi⟩)

theorem decode_eq_zeroWord_iff : decode t w = .error .zeroWord ↔ w = 0#32 := by
  constructor
  · intro h
    obtain ⟨-, h0⟩ | ⟨he, -⟩ | ⟨he, -⟩ := decode_error_cases h
    · exact h0
    · cases he
    · cases he
  · intro h0
    simp [decode, h0]

theorem decode_eq_unknownFunct_iff :
    decode t w = .error .unknownFunct ↔
      w ≠ 0#32 ∧ opcodeField w = rOpcode ∧ ∀ op, functField w ≠ t.rFunct op := by
  constructor
  · intro h
    obtain ⟨he, -⟩ | ⟨-, hw⟩ | ⟨he, -⟩ := decode_error_cases h
    · cases he
    · exact hw
    · cases he
  · rintro ⟨h0, ho, hf⟩
    simp [decode, h0, ho, decodeR, opOfFunct_eq_none.2 hf]

theorem decode_eq_unknownOpcode_iff :
    decode t w = .error .unknownOpcode ↔
      opcodeField w ≠ rOpcode ∧ (∀ op, opcodeField w ≠ t.jOpcode op) ∧ ∀ op, opcodeField w ≠ t.iOpcode op := by
  constructor
  · intro h
    obtain ⟨he, -⟩ | ⟨he, -⟩ | ⟨-, hw⟩ := decode_error_cases h
    · cases he
    · cases he
    · exact hw
  · rintro ⟨ho, hj, hi⟩
    simp [decode, ne_zero_of_opcode ho, ho, decodeJI, jOpOfOpcode_eq_none.2 hj, iOpOfOpcode_eq_none.2 hi]

end DecodeFailures

/-- Settles O59: legality makes the table's lookups exact on the words a number selects, and the words none selects are
those of the three failures. -/
theorem decodeFollowsTable : Obligations.DecodeFollowsTable := fun _ _ ht =>
  ⟨fun _ h0 ho hf => decode_R ht h0 ho hf, fun _ ho => decode_I ht ho, fun _ ho => decode_J ht ho,
    decode_eq_zeroWord_iff, decode_eq_unknownFunct_iff, decode_eq_unknownOpcode_iff⟩

end Sys2Proof
end

section
/-! PROOFS. The registers, the stopped CORE and the alignment of the `pc` (10_state.md): a register changes only by a
writeback, an instruction's effect is a function of its sources, and the statements of this family. -/

namespace Sys2Proof.Machine

/-! ### Register 0 -/

theorem State.readReg_finishReg (s : State) (r q : Reg) (v : Word) :
    (s.finishReg r v).readReg q = if q = r then v else s.readReg q :=
  State.readReg_commit_some s none s.nextPc r q v

@[simp] theorem State.readReg_finishReg_same (s : State) (r : Reg) (v : Word) : (s.finishReg r v).readReg r = v := by
  simp [State.readReg_finishReg]

/-- Settles O29: the writeback treats index 0 like any other, and the `or` of a register with itself is its value. -/
theorem registerZeroIsOrdinary : Obligations.RegisterZeroIsOrdinary := by
  refine ⟨fun s v => s.readReg_writeReg_same 0 v, fun rs rd imm s => ?_⟩
  refine ⟨s.finishReg 0 (s.readReg rs + simm imm), _, rfl, State.readReg_finishReg_same .., rfl, ?_⟩
  rw [State.readReg_finishReg_same, State.readReg_finishReg_same, BitVec.or_self, simm]

/-! ### What an instruction and a step write (R17, R18) -/

section Writes
variable {i : Instr} {s t : State} {q : Reg}

theorem State.lastReg_commit_of_changed {reg : Option (Reg × Word)} {store : Option (Word × Word)} {npc : Word}
    (hq : (s.commit reg store npc).readReg q ≠ s.readReg q) : (s.commit reg store npc).lastReg = some q := by
  obtain _ | ⟨r, v⟩ := reg
  · exact absurd rfl hq
  · have hqr : q = r := by
      by_contra hne
      exact hq (by rw [State.readReg_commit_some, if_neg hne])
    simp [hqr]

/-- An instruction reports its destination (R19) unless its data access is invalid. -/
theorem exec_lastReg (h : exec i s = .next t) :
    t.lastReg = dest i ∨ ∃ kind a, dataAccess s i = some (kind, a) ∧ validAddr s.config a = false := by
  obtain ⟨r, v, npc, hd, he⟩ | ⟨a, v, -, hd, -, he⟩ | ⟨npc, hd, -, he⟩ | ⟨a, ha, hv, he⟩ | ⟨a, ha, hv, he⟩ :=
    exec_cases i s <;> cases he.symm.trans h
  · exact .inl hd.symm
  · exact .inl hd.symm
  · exact .inl hd.symm
  · exact .inr ⟨_, a, ha, hv⟩
  · exact .inr ⟨_, a, ha, hv⟩

/-- A register that an instruction changed is its destination and the one it reports. -/
theorem exec_of_changed (h : exec i s = .next t) (hq : t.readReg q ≠ s.readReg q) :
    dest i = some q ∧ t.lastReg = some q := by
  obtain ⟨r, v, npc, hd, he⟩ | ⟨a, v, -, -, -, he⟩ | ⟨npc, -, -, he⟩ | ⟨a, -, -, he⟩ | ⟨a, -, -, he⟩ :=
    exec_cases i s <;> cases he.symm.trans h
  · have hl := State.lastReg_commit_of_changed hq
    exact ⟨hd.trans hl, hl⟩
  all_goals exact absurd rfl hq

/-- A register that a step changed was written back by the instruction at `pc`: a failing fetch or decode changes none. -/
theorem step_of_changed (h : step s = .next t) (hq : t.readReg q ≠ s.readReg q) :
    ∃ w i, s.memRead s.pc = some w ∧ decode s.config.opcodes w = .ok i ∧ dest i = some q ∧ t.lastReg = some q := by
  obtain ⟨st, -, he⟩ | ⟨-, -, he⟩ | ⟨w, k, -, -, -, he⟩ | ⟨w, i, -, hw, hd, he⟩ := step_cases s
  · cases he.symm.trans h
  · cases he.symm.trans h
    exact absurd rfl hq
  · cases he.symm.trans h
    exact absurd rfl hq
  · exact ⟨w, i, hw, hd, exec_of_changed (he.symm.trans h) hq⟩

end Writes

/-- Settles O31: the one register a step may change is the one it reports. -/
theorem oneRegisterWritePerStep : Obligations.OneRegisterWritePerStep := by
  refine fun s t h => ⟨⟨t.lastReg.getD 0, fun q hq => ?_⟩, fun q => step_of_changed h⟩
  by_contra hne
  obtain ⟨w, i, -, -, -, hl⟩ := step_of_changed h hne
  exact hq (by rw [hl, Option.getD_some])

/-! ### What an instruction reads (R17) -/

/-- The instruction ends in both states with the same commit or with the same stop. -/
def SameEffect (i : Instr) (s s' : State) : Prop :=
  (∃ reg store npc, exec i s = .next (s.commit reg store npc) ∧ exec i s' = .next (s'.commit reg store npc)) ∨
    ∃ c, exec i s = .next (s.stopWith c) ∧ exec i s' = .next (s'.stopWith c)

section Reads
variable {i : Instr} {s s' : State}

theorem SameEffect.of_finishReg {r : Reg} {v v' : Word} (h : exec i s = .next (s.finishReg r v))
    (h' : exec i s' = .next (s'.finishReg r v')) (hp : s'.pc = s.pc) (hv : v' = v) : SameEffect i s s' := by
  subst hv
  refine .inl ⟨some (r, v'), none, s.nextPc, h, ?_⟩
  rw [h', State.finishReg, State.nextPc, State.nextPc, hp]

theorem SameEffect.of_finishJump {npc npc' : Word} (h : exec i s = .next (s.finishJump npc))
    (h' : exec i s' = .next (s'.finishJump npc')) (hn : npc' = npc) : SameEffect i s s' := by
  subst hn
  exact .inl ⟨none, none, npc', h, h'⟩

/-- An instruction's effect is a function of the registers it uses, the `pc`, the memory and the parameters. -/
theorem sameEffect_of_sources (hc : s'.config = s.config) (hm : s'.mem = s.mem) (hp : s'.pc = s.pc)
    (hr : ∀ q ∈ sources i, s'.readReg q = s.readReg q) : SameEffect i s s' := by
  have hn : s'.nextPc = s.nextPc := by rw [State.nextPc, State.nextPc, hp]
  cases i with
  | addu rs rt rd sh | subu rs rt rd sh | and rs rt rd sh | or rs rt rd sh | slt rs rt rd sh =>
    refine .of_finishReg rfl rfl hp ?_
    rw [hr rs (by simp [sources]), hr rt (by simp [sources])]
  | sll rs rt rd sh | srl rs rt rd sh =>
    refine .of_finishReg rfl rfl hp ?_
    rw [hr rt (by simp [sources])]
  | addiu rs rt imm | andi rs rt imm | ori rs rt imm =>
    refine .of_finishReg rfl rfl hp ?_
    rw [hr rs (by simp [sources])]
  | lui rs rt imm => exact .of_finishReg rfl rfl hp rfl
  | beq rs rt imm | bne rs rt imm =>
    refine .of_finishJump rfl rfl ?_
    rw [hr rs (by simp [sources]), hr rt (by simp [sources]), State.branchTarget, State.branchTarget, hn]
  | jr rs rt rd sh => exact .of_finishJump rfl rfl (hr rs (by simp [sources]))
  | j target => exact .of_finishJump rfl rfl (by rw [hp])
  | jal target =>
    refine .inl ⟨some (linkReg, s.nextPc), none, jumpTarget s.pc target, rfl, ?_⟩
    rw [← hn, ← hp]
    rfl
  | lw rs rt imm =>
    have hs : s'.readReg rs = s.readReg rs := hr rs (by simp [sources])
    have hmr (a : Word) : s'.memRead a = s.memRead a := by rw [State.memRead, State.memRead, hc, hm]
    cases h : s.memRead (effectiveAddress (s.readReg rs) imm) with
    | some v => exact .of_finishReg (exec_lw_of_memRead h) (exec_lw_of_memRead (by rw [hmr, hs, h])) hp rfl
    | none =>
      have hv := State.memRead_eq_none h
      refine .inr ⟨_, exec_lw_of_invalid hv, ?_⟩
      rw [exec_lw_of_invalid (by rw [hc, hs, hv]), hs]
  | sw rs rt imm =>
    have hs : s'.readReg rs = s.readReg rs := hr rs (by simp [sources])
    have ht : s'.readReg rt = s.readReg rt := hr rt (by simp [sources])
    cases hv : validAddr s.config (effectiveAddress (s.readReg rs) imm) with
    | true =>
      refine .inl ⟨none, _, _, exec_sw_of_valid hv, ?_⟩
      rw [exec_sw_of_valid (by rw [hc, hs, hv]), hs, ht, hn]
    | false =>
      refine .inr ⟨_, exec_sw_of_invalid hv, ?_⟩
      rw [exec_sw_of_invalid (by rw [hc, hs, hv]), hs]

theorem sameEffect_writeReg {r : Reg} (v : Word) (hr : r ∉ sources i) : SameEffect i s (s.writeReg r v) :=
  sameEffect_of_sources rfl rfl rfl fun _ hq => State.readReg_writeReg_other s r v (ne_of_mem_of_not_mem hq hr)

end Reads

/-- A commit hides an earlier write of the register it writes, and keeps one of any other. -/
theorem State.commit_writeReg (s : State) (r : Reg) (v : Word) (reg : Option (Reg × Word)) (store : Option (Word × Word))
    (npc : Word) :
    (s.writeReg r v).commit reg store npc =
      if (s.commit reg store npc).lastReg = some r then s.commit reg store npc
      else (s.commit reg store npc).writeReg r v := by
  obtain _ | ⟨q, x⟩ := reg
  · rfl
  · by_cases hqr : q = r
    · simp [hqr, State.commit]
    · have hne : q.val ≠ r.val := Fin.val_ne_of_ne hqr
      simp [hqr, State.commit, State.writeReg, Vector.set_comm _ _ hne]

/-- Settles O30: the writes are `exec_of_changed` and `exec_lastReg`, the reads that a write to an unused register leaves
the instruction's effect. -/
theorem registerUse : Obligations.RegisterUse := by
  refine ⟨fun i s t r h hd => ?_, fun i s r v hr => ?_⟩
  · by_contra hne
    exact hd (exec_of_changed h hne).1
  · obtain ⟨reg, store, npc, h, h'⟩ | ⟨c, h, h'⟩ := sameEffect_writeReg (s := s) v hr
    · exact ⟨_, h, exec_lastReg h, by rw [h', State.commit_writeReg]⟩
    · exact ⟨_, h, exec_lastReg h, h'⟩

/-! ### The stopped CORE (R20) -/

theorem step_of_stopped {s : State} {st : Stop} (hs : s.status = .stopped st) : step s = .fault (.stopped st) := by
  simp [step, issue, hs]

/-- A run ends with the first fault. -/
theorem core_run_of_fault {s : State} {f : Fault} (h : step s = .fault f) (n : Nat) :
    Host.Core.run Sys2Proof.core (n + 1) s = .fault f := by
  have hc : Sys2Proof.core.step s = .fault f := h
  simp [Host.Core.run, hc]

/-- Settles O44: a stopped state's step is a fault, which a step request reports and which ends a run. -/
theorem stoppedForEver : Obligations.StoppedForEver := fun _ _ hs =>
  have h := step_of_stopped hs
  ⟨h, by simp [requestStep, h], core_run_of_fault h⟩

/-! ### The `pc` (R22, R28) -/

/-- A multiple of 4 added to an address keeps its alignment. -/
theorem add_aligned_iff {a d : Word} (hd : d.toNat % 4 = 0) : (a + d).toNat % 4 = 0 ↔ a.toNat % 4 = 0 := by
  rw [BitVec.toNat_add]
  omega

theorem shiftLeft_two_aligned (x : Word) : (x <<< 2).toNat % 4 = 0 := by
  rw [BitVec.toNat_shiftLeft, Nat.shiftLeft_eq]
  omega

theorem State.nextPc_aligned_iff (s : State) : s.nextPc.toNat % 4 = 0 ↔ s.pc.toNat % 4 = 0 :=
  add_aligned_iff (by decide)

theorem branchDelta_aligned (taken : Bool) (imm : BitVec 16) : (branchDelta taken imm).toNat % 4 = 0 := by
  cases taken with
  | false => rfl
  | true => exact shiftLeft_two_aligned (simm imm)

theorem State.branchTarget_aligned_iff (s : State) (taken : Bool) (imm : BitVec 16) :
    (s.branchTarget taken imm).toNat % 4 = 0 ↔ s.pc.toNat % 4 = 0 :=
  (add_aligned_iff (branchDelta_aligned taken imm)).trans s.nextPc_aligned_iff

/-- Both halves of a jump target, the region and the 26 bits shifted by two, are multiples of 4. -/
theorem jumpTarget_aligned (pc : Word) (target : BitVec 26) : (jumpTarget pc target).toNat % 4 = 0 := by
  have hlow : (target.setWidth 32 <<< 2).toNat % 2 ^ 2 = 0 := shiftLeft_two_aligned _
  have hregion : ((pc + instrBytes) &&& 0xF0000000#32).toNat % 2 ^ 2 = 0 := by
    rw [BitVec.toNat_and, Nat.and_mod_two_pow]
    simp
  rw [jumpTarget, BitVec.toNat_or, show 4 = 2 ^ 2 from rfl, Nat.or_mod_two_pow, hlow, hregion]
  rfl

/-- Settles O48: an instruction goes on at `pc + 4`, at a branch target, at a jump target or at a register's value, and a
stopped `lw` or `sw` keeps the `pc`. -/
theorem pcAlignment : Obligations.PcAlignment := by
  intro i s t h
  cases i with
  | j target | jal target =>
    cases h
    exact jumpTarget_aligned s.pc target
  | jr rs rt rd sh =>
    cases h
    rfl
  | beq rs rt imm | bne rs rt imm =>
    cases h
    exact s.branchTarget_aligned_iff _ imm
  | lw rs rt imm =>
    obtain hv | hv := Bool.eq_false_or_eq_true (validAddr s.config (effectiveAddress (s.readReg rs) imm))
    · cases (exec_lw_of_memRead (State.memRead_valid hv)).symm.trans h
      exact s.nextPc_aligned_iff
    · cases (exec_lw_of_invalid hv).symm.trans h
      exact Iff.rfl
  | sw rs rt imm =>
    obtain hv | hv := Bool.eq_false_or_eq_true (validAddr s.config (effectiveAddress (s.readReg rs) imm))
    · cases (exec_sw_of_valid hv).symm.trans h
      exact s.nextPc_aligned_iff
    · cases (exec_sw_of_invalid hv).symm.trans h
      exact Iff.rfl
  | sll rs rt rd sh | srl rs rt rd sh | addu rs rt rd sh | subu rs rt rd sh | and rs rt rd sh | or rs rt rd sh
  | slt rs rt rd sh | addiu rs rt imm | andi rs rt imm | ori rs rt imm | lui rs rt imm =>
    cases h
    exact s.nextPc_aligned_iff

/-- Settles O49: the model's own field lemma of `State.resetWith` for the `pc`. -/
theorem resetPcIsBase : Obligations.ResetPcIsBase := State.resetWith_pc

end Sys2Proof.Machine
end

section
/-! PROOFS. Memory (20_memory.md): a store is seen by every later read of its address, fetch included. -/

namespace Sys2Proof.Machine

/-! ### A running step, by the word at the `pc` -/

section StepOfWord
variable {s : State} {w : Word}

theorem step_of_decode_ok {i : Instr} (hs : s.status = .running) (hw : s.memRead s.pc = some w)
    (hd : decode s.config.opcodes w = .ok i) : step s = exec i s := by
  simp [step, issue, hs, fetchInstr_ok hw hd]

theorem step_of_decode_error {k : DecodeFailure} (hs : s.status = .running) (hw : s.memRead s.pc = some w)
    (hd : decode s.config.opcodes w = .error k) : step s = .next (s.stopWith (.decodeFailure k w)) := by
  simp [step, issue, hs, fetchInstr, fetchWord, hw, hd]

end StepOfWord

/-! ### Reads after a store (R42, R45) -/

/-- A word read depends on the parameters and the memory alone. -/
theorem State.memRead_congr {s s' : State} (hc : s'.config = s.config) (hm : s'.mem = s.mem) (a : Word) :
    s'.memRead a = s.memRead a := by
  rw [State.memRead, State.memRead, hc, hm]

/-- The stored word is what a read of a valid stored address gives. -/
theorem State.memRead_commit_store_same {s : State} {a : Word} (hm : s.mem.wf = true) (ha : validAddr s.config a = true)
    (reg : Option (Reg × Word)) (v npc : Word) : (s.commit reg (some (a, v)) npc).memRead a = some v := by
  rw [State.memRead_valid (by simpa using ha)]
  simp [Memory.readWord_writeWord_same hm]

/-- Settles O38: the fetch reads the memory the store left, so the word at the `pc` is the stored one. -/
theorem fetchAfterStore : Obligations.FetchAfterStore := by
  intro rs rt imm s t u hm ha ht hmem hcfg hrun hpc
  cases (exec_sw_of_valid ha).symm.trans ht
  have hfetch : u.memRead u.pc = some (s.readReg rt) := by
    rw [State.memRead_congr hcfg hmem, hpc, State.memRead_commit_store_same hm ha]
  have hops : u.config.opcodes = s.config.opcodes := by rw [hcfg, State.commit_config]
  exact ⟨fun i hd => step_of_decode_ok hrun hfetch (by rw [hops, hd]),
    fun k hd => step_of_decode_error hrun hfetch (by rw [hops, hd])⟩

end Sys2Proof.Machine
end

section
/-! PROOFS. The encoding (30_encoding.md): encoding undoes decoding, the words the default table rejects, the immediate
forms in arithmetic, and the fields an operation ignores. -/

namespace Sys2Proof

/-- Settles O2: in each of the three formats the fields a word decodes to, put together again, are the word. -/
theorem encodeOfDecode : Obligations.EncodeOfDecode := by
  intro t w i h
  obtain ⟨-, hd⟩ | ⟨-, -, -, hd⟩ | ⟨op, h0, ho, hf, hd⟩ | ⟨op, -, hj, hd⟩ | ⟨op, -, -, hi, hd⟩ | ⟨-, -, -, hd⟩ :=
    decode_cases t w <;> cases hd.symm.trans h
  · have hw := encodeR_fields ho (eq_rFunct_of_opOfFunct hf)
    rw [encode_ofR, wf_ofR, notZeroWord_iff, hw]
    exact ⟨rfl, h0⟩
  · rw [encode_ofJ, wf_ofJ]
    exact ⟨encodeJ_fields (eq_jOpcode_of_jOpOfOpcode hj), rfl⟩
  · rw [encode_ofI, wf_ofI]
    exact ⟨encodeI_fields (eq_iOpcode_of_iOpOfOpcode hi), rfl⟩

/-! ### The words the default table rejects (R50, R62) -/

section Unmatched
variable {t : OpcodeTable}

theorem not_mem_rFuncts {f : BitVec 6} : f ∉ t.rFuncts ↔ ∀ op, f ≠ t.rFunct op := by
  rw [mem_rFuncts, not_not, opOfFunct_eq_none]

/-- An opcode outside the eleven of a table is not the R format's and not one the table gives an operation. -/
theorem not_mem_opcodes {o : BitVec 6} :
    o ∉ rOpcode :: (t.jOpcodes ++ t.iOpcodes) ↔
      o ≠ rOpcode ∧ (∀ op, o ≠ t.jOpcode op) ∧ ∀ op, o ≠ t.iOpcode op := by
  rw [List.mem_cons, List.mem_append, mem_jOpcodes, mem_iOpcodes, not_or, not_or, not_not, not_not,
    jOpOfOpcode_eq_none, iOpOfOpcode_eq_none]

end Unmatched

/-- Settles O3: the two lists of numbers are the default table's own. -/
theorem decodeRejectsExactly : Obligations.DecodeRejectsExactly := by
  refine fun w => ⟨decode_eq_zeroWord_iff, ?_, ?_⟩
  · rw [decode_eq_unknownFunct_iff, ← not_mem_rFuncts]
    rfl
  · rw [decode_eq_unknownOpcode_iff, ← not_mem_opcodes]
    rfl

end Sys2Proof

namespace Sys2Proof.Machine

/-! ### The immediate forms (R56 to R58, R95) -/

section Immediates
variable (imm : BitVec 16)

theorem simm_toInt :
    (simm imm).toInt = if imm.toNat < 0x8000 then (imm.toNat : Int) else (imm.toNat : Int) - 65536 := by
  rw [simm, BitVec.toInt_signExtend_of_le (by decide), BitVec.toInt_eq_toNat_cond]
  split_ifs <;> omega

theorem simm_toInt_bounds : -32768 ≤ (simm imm).toInt ∧ (simm imm).toInt ≤ 32767 := by
  have := imm.isLt
  rw [simm_toInt]
  split_ifs <;> omega

theorem zimm_toNat : (zimm imm).toNat = imm.toNat := BitVec.toNat_setWidth_of_le (by decide)

/-- Shifting by two is multiplying by 4, and four times a 16-bit value does not wrap in a word. -/
theorem branchOffset_toInt : (branchOffset imm).toInt = 4 * (simm imm).toInt := by
  obtain ⟨hlo, hhi⟩ := simm_toInt_bounds imm
  have hfour : (BitVec.twoPow 32 2).toInt = 4 := by decide
  rw [branchOffset, BitVec.shiftLeft_eq_mul_twoPow, BitVec.toInt_mul, hfour, mul_comm]
  exact Int.bmod_eq_of_le (by omega) (by omega)

/-- The half of `simm` that holds no sign-extension bit is the immediate. -/
theorem extractLsb'_simm_low : (simm imm).extractLsb' 0 16 = imm := by
  rw [simm, BitVec.signExtend_eq_append_of_le (by decide), BitVec.cast_eq,
    extractLsb'_append_low _ _ _ _ (by decide), extractLsb'_whole]

theorem luiValue_eq_append : luiValue imm = imm ++ 0#16 := by
  rw [luiValue, BitVec.shiftLeft_eq_concat_of_lt (by decide), BitVec.cast_eq, extractLsb'_simm_low]

end Immediates

/-- The mask of a jump keeps the four bits of the region. -/
theorem and_regionMask (x : Word) : x &&& 0xF0000000#32 = x.extractLsb' 28 4 ++ 0#28 := by
  have hx : x.extractLsb' 28 4 ++ x.extractLsb' 0 28 = x :=
    (extractLsb'_append_extractLsb' x 0 4 28).trans (extractLsb'_whole x)
  have hmask : 0xF0000000#32 = BitVec.allOnes 4 ++ 0#28 := rfl
  calc x &&& 0xF0000000#32
      = (x.extractLsb' 28 4 ++ x.extractLsb' 0 28) &&& (BitVec.allOnes 4 ++ 0#28) := by rw [hx, hmask]
    _ = x.extractLsb' 28 4 ++ 0#28 := by rw [BitVec.and_append, BitVec.and_allOnes, BitVec.and_zero]

theorem target_shiftLeft_two (target : BitVec 26) : target.setWidth 32 <<< 2 = 0#4 ++ (target ++ 0#2) := by
  calc target.setWidth 32 <<< 2
      = (target ++ 0#2).setWidth 32 := by
        rw [BitVec.setWidth_append_eq_shiftLeft_setWidth_or, BitVec.setWidth_zero, BitVec.or_zero]
    _ = 0#4 ++ (target ++ 0#2) := BitVec.setWidth_eq_append (by decide)

theorem jumpTarget_eq_append (pc : Word) (target : BitVec 26) :
    jumpTarget pc target = (pc + 4#32).extractLsb' 28 4 ++ target ++ 0#2 := by
  rw [jumpTarget, instrBytes, and_regionMask, target_shiftLeft_two, BitVec.or_append, BitVec.or_zero, BitVec.zero_or,
    BitVec.append_assoc, BitVec.cast_eq]

/-- Settles O6: each form by its own lemma; the range of a branch is four times that of `simm`. -/
theorem immediateForms : Obligations.ImmediateForms := by
  intro imm pc target
  have hb := branchOffset_toInt imm
  obtain ⟨hlo, hhi⟩ := simm_toInt_bounds imm
  exact ⟨simm_toInt imm, zimm_toNat imm, hb, by omega, by omega, luiValue_eq_append imm, jumpTarget_eq_append pc target⟩

/-- Settles O5: `exec` passes no unused field to an instruction's meaning, so both sides are one value of that meaning. -/
theorem unusedFieldsIgnored : Obligations.UnusedFieldsIgnored := fun _ _ _ _ _ _ _ _ _ _ =>
  ⟨rfl, rfl, rfl, rfl, rfl, rfl, rfl, rfl, rfl⟩

end Sys2Proof.Machine
end

section
/-! PROOFS. The driver's view of the CORE (40_step_and_units.md R77, R78): what a step request reports and what the
inspection interface reads. -/

namespace Sys2Proof.Machine

/-! ### The step request (R77) -/

theorem State.report_of_running {t : State} (ht : t.status = .running) : t.report = .completed t.lastReg t.lastMem := by
  simp [State.report, ht]

theorem State.report_of_stopped {t : State} {st : Stop} (ht : t.status = .stopped st) : t.report = .stopped st := by
  simp [State.report, ht]

theorem requestStep_of_next {s t : State} (h : step s = .next t) : requestStep s = (t, t.report) := by
  simp [requestStep, h]

/-- Settles O56: a request leaves the state the step answers and returns that state's own report. -/
theorem requestReports : Obligations.RequestReports := by
  intro s t h
  rw [requestStep_of_next h]
  exact ⟨rfl, State.report_of_running, fun _ => State.report_of_stopped⟩

/-! ### The inspection interface (R78) -/

/-- The index of a valid address names the word that starts there (R31, R33): both the address and `BASE` are multiples
of 4. -/
theorem wordAddr_wordIndex {c : Config} {a : Word} (hc : c.wf = true) (ha : validAddr c a = true) :
    wordAddr c (wordIndex c a) = a.toNat := by
  obtain ⟨hbase, -, -⟩ := (Config.wf_iff c).1 hc
  obtain ⟨haligned, hle, -⟩ := (validAddr_iff c a).1 ha
  simp only [wordAddr, wordIndex]
  omega

/-- A read of a valid address, by word index (R33). -/
theorem State.memRead_eq_wordAt {s : State} {a : Word} (hc : s.config.wf = true) (ha : validAddr s.config a = true) :
    s.memRead a = some (s.wordAt (wordIndex s.config a)) := by
  rw [State.memRead_valid ha, State.wordAt, wordAddr_wordIndex hc ha]

/-- Settles O57: inspecting an address is a memory read (R33); the other reads are the state's own fields. -/
theorem inspectionReads : Obligations.InspectionReads := fun _ _ _ hc =>
  ⟨State.memRead_eq_wordAt hc, State.memRead_invalid, rfl, rfl, rfl, rfl⟩

end Sys2Proof.Machine
end

section
/-! PROOFS. Arithmetic, logic, shift and load-upper (41_alu_ops.md): the words that decode to each instruction, the one
state update all of them end in, and the result each of them writes. -/

namespace Sys2Proof

/-! ### The words of the R format (R50, R51) -/

section Words
variable {t : OpcodeTable} {w : Word} {op : ROp}

theorem ne_zero_of_funct (h : functField w ≠ 0#6) : w ≠ 0#32 := by
  rintro rfl
  exact h rfl

/-- Only the operation whose funct is 0 shares its encoding with the zero word. -/
theorem decode_R_of_funct_ne_zero (ht : t.wf = true) (hne : t.rFunct op ≠ 0#6) (ho : opcodeField w = rOpcode)
    (hf : functField w = t.rFunct op) :
    decode t w = .ok (Instr.ofR op (rsField w) (rtField w) (rdField w) (shamtField w)) :=
  decode_R ht (ne_zero_of_funct (hf ▸ hne)) ho hf

end Words

end Sys2Proof

namespace Sys2Proof.Machine

/-! ### The update an instruction of this family ends in (R75, R76) -/

theorem State.readReg_eq_getElem (s : State) (r : Reg) : s.readReg r = s.regs[r] := rfl

theorem State.finishReg_eq_update (s : State) (r : Reg) (v : Word) :
    s.finishReg r v =
      { s with regs := s.regs.set r v, pc := s.pc + 4#32, lastReg := some r, lastMem := none } := rfl

/-! ### The result each instruction writes (R79 to R86, R89) -/

section Results
variable (rs rt rd : Reg) (shamt : BitVec 5) (imm : BitVec 16) (s : State)

theorem exec_addu : exec (.addu rs rt rd shamt) s = .next (s.finishReg rd (s.readReg rs + s.readReg rt)) := rfl

theorem exec_subu : exec (.subu rs rt rd shamt) s = .next (s.finishReg rd (s.readReg rs - s.readReg rt)) := rfl

theorem exec_and : exec (.and rs rt rd shamt) s = .next (s.finishReg rd (s.readReg rs &&& s.readReg rt)) := rfl

theorem exec_or : exec (.or rs rt rd shamt) s = .next (s.finishReg rd (s.readReg rs ||| s.readReg rt)) := rfl

theorem exec_slt :
    exec (.slt rs rt rd shamt) s = .next (s.finishReg rd (setLessThan (s.readReg rs) (s.readReg rt))) := rfl

theorem exec_sll : exec (.sll rs rt rd shamt) s = .next (s.finishReg rd (s.readReg rt <<< shiftAmount shamt)) := rfl

theorem exec_srl : exec (.srl rs rt rd shamt) s = .next (s.finishReg rd (s.readReg rt >>> shiftAmount shamt)) := rfl

theorem exec_addiu : exec (.addiu rs rt imm) s = .next (s.finishReg rt (s.readReg rs + simm imm)) := rfl

theorem exec_lui : exec (.lui rs rt imm) s = .next (s.finishReg rt (luiValue imm)) := rfl

end Results

/-! ### R format -/

/-- Settles O7: funct 0x21 is the default table's `addu`, and its result is the sum of the two registers. -/
theorem adduAdds : Obligations.AdduAdds := by
  refine ⟨fun w ho hf => decode_R_of_funct_ne_zero (op := .addu) OpcodeTable.mips_wf (by decide) ho hf,
    fun rs rt rd shamt s => ?_⟩
  rw [exec_addu, State.finishReg_eq_update, State.readReg_eq_getElem, State.readReg_eq_getElem]

/-- Settles O8: funct 0x23 is the default table's `subu`, and its result is the difference of the two registers. -/
theorem subuSubtracts : Obligations.SubuSubtracts := by
  refine ⟨fun w ho hf => decode_R_of_funct_ne_zero (op := .subu) OpcodeTable.mips_wf (by decide) ho hf,
    fun rs rt rd shamt s => ?_⟩
  rw [exec_subu, State.finishReg_eq_update, State.readReg_eq_getElem, State.readReg_eq_getElem]

/-- Settles O9: funct 0x24 is the default table's `and`, and its result is the and of the two registers. -/
theorem andMasks : Obligations.AndMasks := by
  refine ⟨fun w ho hf => decode_R_of_funct_ne_zero (op := .and) OpcodeTable.mips_wf (by decide) ho hf,
    fun rs rt rd shamt s => ?_⟩
  rw [exec_and, State.finishReg_eq_update, State.readReg_eq_getElem, State.readReg_eq_getElem]

/-- Settles O10: funct 0x25 is the default table's `or`, and its result is the or of the two registers. -/
theorem orJoins : Obligations.OrJoins := by
  refine ⟨fun w ho hf => decode_R_of_funct_ne_zero (op := .or) OpcodeTable.mips_wf (by decide) ho hf,
    fun rs rt rd shamt s => ?_⟩
  rw [exec_or, State.finishReg_eq_update, State.readReg_eq_getElem, State.readReg_eq_getElem]

/-- Settles O11: funct 0x2A is the default table's `slt`, and `setLessThan` compares the two registers as integers. -/
theorem sltComparesSigned : Obligations.SltComparesSigned := by
  refine ⟨fun w ho hf => decode_R_of_funct_ne_zero (op := .slt) OpcodeTable.mips_wf (by decide) ho hf,
    fun rs rt rd shamt s => ?_⟩
  rw [exec_slt, State.finishReg_eq_update, State.readReg_eq_getElem, State.readReg_eq_getElem, setLessThan]

/-- Settles O12: `sll` is the operation whose funct is 0, so its words are those of this encoding but the zero word. -/
theorem sllShiftsLeft : Obligations.SllShiftsLeft := by
  refine ⟨fun w h0 ho hf => decode_R (op := .sll) OpcodeTable.mips_wf h0 ho hf, decode_eq_zeroWord_iff.2 rfl,
    fun rs rt rd shamt s => ?_⟩
  rw [exec_sll, State.finishReg_eq_update, State.readReg_eq_getElem, shiftAmount]

/-- Settles O13: funct 0x02 is the default table's `srl`, and its result is the register shifted right by `shamt`. -/
theorem srlShiftsRight : Obligations.SrlShiftsRight := by
  refine ⟨fun w ho hf => decode_R_of_funct_ne_zero (op := .srl) OpcodeTable.mips_wf (by decide) ho hf,
    fun rs rt rd shamt s => ?_⟩
  rw [exec_srl, State.finishReg_eq_update, State.readReg_eq_getElem, shiftAmount]

/-! ### I format -/

/-- Settles O14: opcode 0x09 is the default table's `addiu`, and its second operand is the sign-extended immediate. -/
theorem addiuAddsImmediate : Obligations.AddiuAddsImmediate := by
  refine ⟨fun w ho => decode_I (op := .addiu) OpcodeTable.mips_wf ho, fun rs rt imm s => ?_⟩
  rw [exec_addiu, State.finishReg_eq_update, State.readReg_eq_getElem, simm]

/-- Settles O17: opcode 0x0F is the default table's `lui`, and the shift by 16 moves every sign-extension bit out of the
word. -/
theorem luiLoadsUpper : Obligations.LuiLoadsUpper := by
  refine ⟨fun w ho => decode_I (op := .lui) OpcodeTable.mips_wf ho, fun rs rt imm s => ⟨?_, luiValue_eq_append imm⟩⟩
  rw [exec_lui, State.finishReg_eq_update, luiValue, simm]

end Sys2Proof.Machine
end

section
/-! PROOFS. Exceptions (60_exceptions.md): an instruction stops only on its data access. -/

namespace Sys2Proof.Machine

/-! ### How an instruction ends (R72, R107) -/

/-- An instruction completes with the run status as it was, or stops on its data access, which is invalid. -/
theorem exec_keeps_status_or_stops (i : Instr) (s : State) :
    (∃ t, exec i s = .next t ∧ t.status = s.status) ∨
    ∃ kind a, dataAccess s i = some (kind, a) ∧ validAddr s.config a = false ∧
      exec i s = .next (s.stopWith (.undefinedAccess kind a)) := by
  obtain ⟨r, v, npc, -, he⟩ | ⟨a, v, -, -, -, he⟩ | ⟨npc, -, -, he⟩ | ⟨a, ha, hv, he⟩ | ⟨a, ha, hv, he⟩ := exec_cases i s
  · exact .inl ⟨_, he, State.commit_status ..⟩
  · exact .inl ⟨_, he, State.commit_status ..⟩
  · exact .inl ⟨_, he, State.commit_status ..⟩
  · exact .inr ⟨.load, a, ha, hv, he⟩
  · exact .inr ⟨.store, a, ha, hv, he⟩

/-- Settles O46: both ends of an instruction are next states, and the one that changes the status needs a data access. -/
theorem everyInstructionAnswers : Obligations.EveryInstructionAnswers := by
  intro i s
  obtain ⟨t, he, hs⟩ | ⟨kind, a, ha, -, he⟩ := exec_keeps_status_or_stops i s
  · exact ⟨t, he, fun _ => hs⟩
  · refine ⟨_, he, fun hnone => ?_⟩
    cases ha.symm.trans hnone

end Sys2Proof.Machine
end

section
/-! PROOFS. Reset and loading (70_reset_and_hazards.md R113, R114): the words a reset places, read by index and by
address, and the image the loader makes. -/

namespace Sys2Proof.Machine

/-! ### The words a reset places (R47, R113) -/

section ResetWords
variable {c : Config} {m : List Word} {k : Nat}

theorem State.wordAt_resetWith (g : Vector Word 32) (hk : k < m.length) (hmem : k < memWords c) :
    (State.resetWith c g m).wordAt k = m[k] := by
  have hlen : k < (m.take (memWords c)).length := by
    rw [List.length_take]
    omega
  rw [State.wordAt, State.resetWith_mem, State.resetWith_config, wordAddr,
    Memory.readWord_placeWords Memory.nil_wf _ _ k hlen, List.getElem_take]

/-- The address of a word inside memory does not wrap (R7, R31). -/
theorem toNat_base_add (hc : c.wf = true) (hmem : k < memWords c) :
    (c.base + BitVec.ofNat 32 (4 * k)).toNat = wordAddr c k := by
  obtain ⟨-, -, hend⟩ := (Config.wf_iff c).1 hc
  rw [memEnd] at hend
  rw [BitVec.toNat_add, BitVec.toNat_ofNat, wordAddr]
  omega

theorem validAddr_base_add (hc : c.wf = true) (hmem : k < memWords c) :
    validAddr c (c.base + BitVec.ofNat 32 (4 * k)) = true := by
  obtain ⟨hbase, -, -⟩ := (Config.wf_iff c).1 hc
  rw [validAddr_iff, toNat_base_add hc hmem, wordAddr, memEnd]
  omega

/-- A read at `BASE + 4*k` gives word `k` of memory (R31, R33). -/
theorem State.memRead_base_add {s : State} (hc : s.config.wf = true) (hmem : k < memWords s.config) :
    s.memRead (s.config.base + BitVec.ofNat 32 (4 * k)) = some (s.wordAt k) := by
  rw [State.memRead_valid (validAddr_base_add hc hmem), toNat_base_add hc hmem, State.wordAt]

theorem State.memRead_resetWith (g : Vector Word 32) (hc : c.wf = true) (hk : k < m.length) (hmem : k < memWords c) :
    (State.resetWith c g m).memRead (c.base + BitVec.ofNat 32 (4 * k)) = some m[k] :=
  (State.memRead_base_add (s := State.resetWith c g m) hc hmem).trans
    (congrArg some (State.wordAt_resetWith g hk hmem))

end ResetWords

/-! ### The loader (R114) -/

section Boot
variable {c : Config} {prog : List Word} (g : Vector Word 32) (m : List Word)

theorem State.boot_of_too_large (h : prog.length > c.instrWords) : State.boot c g m prog = none := by
  rw [State.boot, loadImage, if_neg (by omega), Option.map_none]

theorem State.boot_of_fits (h : prog.length ≤ c.instrWords) :
    State.boot c g m prog = some (State.resetWith c g (prog ++ m.drop prog.length)) := by
  rw [State.boot, loadImage, if_pos h, Option.map_some]

end Boot

/-- Settles O54: a program that fits ends inside memory, so a reset places each of its words, and after them each word
of `MEM_INIT` at the index it has there. -/
theorem programIsLoaded : Obligations.ProgramIsLoaded := by
  refine fun c g m prog hc => ⟨State.boot_of_too_large g m, fun hfit => ⟨_, State.boot_of_fits g m hfit, ?_⟩⟩
  refine ⟨State.resetWith_pc .., State.resetWith_status .., fun k hk => ?_, fun k hk hprog hmem => ?_⟩
  · have hmem : k < memWords c := by
      rw [memWords]
      omega
    have hlen : k < (prog ++ m.drop prog.length).length := by
      rw [List.length_append]
      omega
    rw [State.memRead_resetWith g hc hlen hmem, List.getElem_append_left hk]
  · have hlen : k < (prog ++ m.drop prog.length).length := by
      rw [List.length_append, List.length_drop]
      omega
    simp only [State.wordAt_resetWith g hlen hmem, List.getElem_append_right hprog, List.getElem_drop,
      Nat.add_sub_cancel' hprog]

end Sys2Proof.Machine
end

section
/-! PROOFS. The round trip of the encoding (30_encoding.md R48 to R55) and the words of the test vectors. -/

namespace Sys2Proof

/-- Settles O1: in each of the three formats the encoded word's fields select the operation back and are the
instruction's own; an R-format word is not the terminator because the instruction is well-formed. -/
theorem decodeOfEncode : Obligations.DecodeOfEncode := by
  refine ⟨OpcodeTable.mips_wf, fun t i ht hi => ?_⟩
  obtain ⟨op, rs, rt, rd, shamt, rfl⟩ | ⟨op, rs, rt, imm, rfl⟩ | ⟨op, target, rfl⟩ := i.format_cases
  · rw [wf_ofR, notZeroWord_iff] at hi
    rw [encode_ofR, decode_R ht hi (opcodeField_encodeR ..) (functField_encodeR ..), rsField_encodeR, rtField_encodeR,
      rdField_encodeR, shamtField_encodeR]
  · rw [encode_ofI, decode_I ht (opcodeField_encodeI ..), rsField_encodeI, rtField_encodeI, immField_encodeI]
  · rw [encode_ofJ, decode_J ht (opcodeField_encodeJ ..), targetField_encodeJ]

/-- Settles O4: the decoder is evaluated on each of the fixed words. -/
theorem vectorWordsDecode : Obligations.VectorWordsDecode := by
  unfold Obligations.VectorWordsDecode
  decide

end Sys2Proof
end

section
/-! PROOFS. What ends a step and what it leaves (40_step_and_units.md, 60_exceptions.md): the stop conditions, the
states a step can answer, and the indicators. -/

namespace Sys2Proof.Machine

/-! ### The steps that stop (R99, R102) -/

theorem State.stopWith_eq_update (s : State) (c : StopCause) :
    s.stopWith c = { s with lastReg := none, lastMem := none, status := .stopped { pc := s.pc, cause := c } } := rfl

/-- `valid(addr)` fails (R33), in arithmetic. -/
theorem validAddr_eq_false_iff (c : Config) (a : Word) :
    validAddr c a = false ↔
      ¬ (a.toNat % 4 = 0 ∧ c.base.toNat ≤ a.toNat ∧ a.toNat < c.base.toNat + 4 * (c.instrWords + c.dataWords)) :=
  by
  rw [← Bool.not_eq_true, validAddr_iff, memEnd, memWords]

section Stops
variable {s t : State} {i : Instr}

theorem step_of_invalid_pc (hs : s.status = .running) (hv : validAddr s.config s.pc = false) :
    step s = .next (s.stopWith (.undefinedAccess .fetch s.pc)) := by
  simp [step, issue, hs, fetchInstr, fetchWord, State.memRead_invalid hv]

/-- Only `lw` and `sw` access data, and each stops where its address is invalid. -/
theorem exec_of_invalid_access {kind : AccessKind} {a : Word} (ha : dataAccess s i = some (kind, a))
    (hv : validAddr s.config a = false) : exec i s = .next (s.stopWith (.undefinedAccess kind a)) := by
  cases i with
  | lw rs rt imm =>
    cases ha
    exact exec_lw_of_invalid hv
  | sw rs rt imm =>
    cases ha
    exact exec_sw_of_invalid hv
  | _ => cases ha

/-- The conditions under which a running step stops (R99): the `pc` is invalid, or the word there does not decode, or
the instruction's data access is invalid. -/
def StopCondition (s : State) : Prop :=
  validAddr s.config s.pc = false ∨
    ∃ w, s.memRead s.pc = some w ∧
      ((∃ k, decode s.config.opcodes w = .error k) ∨
        ∃ i kind a, decode s.config.opcodes w = .ok i ∧ dataAccess s i = some (kind, a) ∧ validAddr s.config a = false)

theorem step_of_stopCondition (hs : s.status = .running) (h : StopCondition s) : ∃ c, step s = .next (s.stopWith c) := by
  obtain hv | ⟨w, hw, ⟨k, hd⟩ | ⟨i, kind, a, hd, ha, hv⟩⟩ := h
  · exact ⟨_, step_of_invalid_pc hs hv⟩
  · exact ⟨_, step_of_decode_error hs hw hd⟩
  · exact ⟨_, (step_of_decode_ok hs hw hd).trans (exec_of_invalid_access ha hv)⟩

theorem step_of_not_stopCondition (hs : s.status = .running) (h : ¬ StopCondition s) :
    ∃ t, step s = .next t ∧ t.status = .running := by
  obtain ⟨st, hst, -⟩ | ⟨-, hv, -⟩ | ⟨w, k, -, hw, hd, -⟩ | ⟨w, i, -, hw, hd, he⟩ := step_cases s
  · cases hs.symm.trans hst
  · exact absurd (.inl hv) h
  · exact absurd (.inr ⟨w, hw, .inl ⟨k, hd⟩⟩) h
  · obtain ⟨t, ht, hstatus⟩ | ⟨kind, a, ha, hv, -⟩ := exec_keeps_status_or_stops i s
    · exact ⟨t, he.trans ht, hstatus.trans hs⟩
    · exact absurd (.inr ⟨w, hw, .inr ⟨i, kind, a, hd, ha, hv⟩⟩) h

end Stops

/-- Settles O43: a step under a stop condition is a stop, which records the `pc`, and any other completes. -/
theorem stopsExactly : Obligations.StopsExactly := by
  intro s hs
  by_cases h : StopCondition s
  · obtain ⟨c, hc⟩ := step_of_stopCondition hs h
    refine ⟨_, hc, iff_of_true (by simp) h, fun st hst => ?_⟩
    cases hst
    exact ⟨rfl, rfl⟩
  · obtain ⟨t, ht, hrun⟩ := step_of_not_stopCondition hs h
    refine ⟨t, ht, iff_of_false (not_not_intro hrun) h, fun st hst => ?_⟩
    cases hrun.symm.trans hst

/-- Settles O39: fetch and decode leave nothing to the step but the instruction. -/
theorem stepRunsDecodedInstr : Obligations.StepRunsDecodedInstr := fun _ _ _ => step_of_decode_ok

/-- Settles O40: a `pc` that fails the arithmetic of R33 is invalid, and the stop is the update written out. -/
theorem badPcStops : Obligations.BadPcStops := by
  intro s hs hpc
  rw [step_of_invalid_pc hs ((validAddr_eq_false_iff _ _).2 hpc), State.stopWith_eq_update]

/-- Settles O41: a decode failure is a stop, and the stop is the update written out. -/
theorem badWordStops : Obligations.BadWordStops := by
  intro s w k hs hw hd
  rw [step_of_decode_error hs hw hd, State.stopWith_eq_update]

/-- Settles O42: the zero word fails to decode with the one failure whose stop is a halt. -/
theorem zeroWordHalts : Obligations.ZeroWordHalts := fun _ hs hw =>
  ⟨_, step_of_decode_error hs hw (decode_eq_zeroWord_iff.2 rfl), ⟨_, rfl, rfl⟩, rfl, rfl, rfl, rfl, rfl⟩

/-- Settles O45: `code` and `isHalt` are read off for each of the six causes. -/
theorem stopCodes : Obligations.StopCodes := by
  refine fun pc x => ⟨rfl, rfl, rfl, rfl, rfl, rfl, fun st => ?_⟩
  obtain ⟨_, ⟨kind, _⟩ | ⟨kind, _⟩⟩ := st <;> cases kind <;> simp [Stop.isHalt, Stop.code]

/-! ### The states a step can answer (R67, R100) -/

/-- Every next state of a step: the stop with its record, or the commit of at most one register, or that of one word. -/
theorem step_next_cases {s t : State} (h : step s = .next t) : s.status = .running ∧
    ((∃ c, t = s.stopWith c ∧ StopRecorded s ⟨s.pc, c⟩) ∨ (∃ reg npc, t = s.commit reg none npc) ∨
      ∃ a v npc, validAddr s.config a = true ∧ t = s.commit none (some (a, v)) npc) := by
  obtain ⟨st, -, he⟩ | ⟨hs, hv, he⟩ | ⟨w, k, hs, hw, hd, he⟩ | ⟨w, i, hs, hw, hd, he⟩ := step_cases s
  · cases he.symm.trans h
  · cases he.symm.trans h
    exact ⟨hs, .inl ⟨_, rfl, rfl, rfl, hv⟩⟩
  · cases he.symm.trans h
    exact ⟨hs, .inl ⟨_, rfl, rfl, hw, hd⟩⟩
  · refine ⟨hs, ?_⟩
    obtain ⟨r, v, npc, -, hx⟩ | ⟨a, v, -, -, hv, hx⟩ | ⟨npc, -, -, hx⟩ | ⟨a, ha, hv, hx⟩ | ⟨a, ha, hv, hx⟩ :=
      exec_cases i s <;> cases (he.trans hx).symm.trans h
    · exact .inr (.inl ⟨_, _, rfl⟩)
    · exact .inr (.inr ⟨a, v, _, hv, rfl⟩)
    · exact .inr (.inl ⟨_, _, rfl⟩)
    · exact .inl ⟨_, rfl, rfl, hv, w, i, hw, hd, ha⟩
    · exact .inl ⟨_, rfl, rfl, hv, w, i, hw, hd, ha⟩

/-! ### The invariant -/

section Invariant
variable {s : State}

theorem State.Inv.stopWith {c : StopCause} (hi : s.Inv) (hc : StopRecorded s ⟨s.pc, c⟩) : (s.stopWith c).Inv where
  config_wf := hi.config_wf
  mem_wf := hi.mem_wf
  mem_inside := hi.mem_inside
  lastMem_valid := fun _ ha => nomatch ha
  one_change := .inl rfl
  stop_recorded := by
    intro st hst
    cases hst
    exact ⟨rfl, rfl, hc⟩

theorem State.Inv.commit_reg (hi : s.Inv) (hs : s.status = .running) (reg : Option (Reg × Word)) (npc : Word) :
    (s.commit reg none npc).Inv where
  config_wf := hi.config_wf
  mem_wf := hi.mem_wf
  mem_inside := hi.mem_inside
  lastMem_valid := fun _ ha => nomatch ha
  one_change := .inr rfl
  stop_recorded := fun _ hst => nomatch hs.symm.trans hst

/-- A store at a valid address writes four bytes inside memory. -/
theorem State.Inv.commit_store {a : Word} (hi : s.Inv) (hs : s.status = .running) (ha : validAddr s.config a = true)
    (v npc : Word) : (s.commit none (some (a, v)) npc).Inv where
  config_wf := hi.config_wf
  mem_wf := Memory.writeWord_wf hi.mem_wf _ _
  mem_inside := Memory.writeWord_inside v hi.mem_inside ((validAddr_iff _ _).1 ha).2.1 (validAddr_word_end hi.config_wf ha)
  lastMem_valid := by
    intro b hb
    cases hb
    exact ha
  one_change := .inl rfl
  stop_recorded := fun _ hst => nomatch hs.symm.trans hst

end Invariant

/-- Settles O53: each of the three kinds of next state keeps the invariant. -/
theorem stepKeepsInv : Obligations.StepKeepsInv := by
  intro s t hi h
  obtain ⟨hs, ⟨c, rfl, hc⟩ | ⟨reg, npc, rfl⟩ | ⟨a, v, npc, ha, rfl⟩⟩ := step_next_cases h
  · exact hi.stopWith hc
  · exact hi.commit_reg hs reg npc
  · exact hi.commit_store hs ha v npc

/-! ### The indicators (R19) -/

/-- Settles O32: a changed register is reported by `step_of_changed`; bytes change only in the stored word, whose address
is reported. -/
theorem indicatorsNameEveryChange : Obligations.IndicatorsNameEveryChange := by
  intro s t hm h
  have hregs : ∀ r, t.lastReg ≠ some r → t.readReg r = s.readReg r := by
    intro r hr
    by_contra hne
    obtain ⟨w, i, -, -, -, hl⟩ := step_of_changed h hne
    exact hr hl
  obtain ⟨-, ⟨c, rfl, -⟩ | ⟨reg, npc, rfl⟩ | ⟨a, v, npc, -, rfl⟩⟩ := step_next_cases h
  · exact ⟨hregs, fun _ _ => rfl, .inl rfl, rfl⟩
  · exact ⟨hregs, fun _ _ => rfl, .inr rfl, rfl⟩
  · exact ⟨hregs, fun b hb => Memory.readByte_writeWord_other hm v (hb a rfl), .inl rfl, rfl⟩

/-- An instruction that stores has no destination (R17). -/
theorem dest_of_store {i : Instr} {s : State} {a : Word} (h : dataAccess s i = some (.store, a)) : dest i = none := by
  cases i with
  | sw rs rt imm => rfl
  | _ => cases h

/-- Settles O33: a completed instruction is a commit of its destination, of its store, or of nothing. -/
theorem indicatorsOfInstruction : Obligations.IndicatorsOfInstruction := by
  intro i s t _ h ht
  obtain ⟨r, v, npc, hd, he⟩ | ⟨a, v, ha, hd, -, he⟩ | ⟨npc, hd, ha, he⟩ | ⟨a, -, -, he⟩ | ⟨a, -, -, he⟩ :=
    exec_cases i s <;> cases he.symm.trans h
  · refine ⟨hd.symm, fun a => iff_of_false (fun hl => nomatch hl) fun ha => ?_⟩
    cases hd.symm.trans (dest_of_store ha)
  · exact ⟨hd.symm, fun b => by simp [ha]⟩
  · exact ⟨hd.symm, fun b => by simp [ha]⟩
  · cases ht
  · cases ht

end Sys2Proof.Machine
end

section
/-! PROOFS. Loads and stores (42_load_store.md, 20_memory.md): what each does on a valid and on an invalid address, and
what a read gives after a store. -/

namespace Sys2Proof.Machine

theorem effectiveAddress_readReg (s : State) (rs : Reg) (imm : BitVec 16) :
    effectiveAddress (s.readReg rs) imm = s.regs[rs] + imm.signExtend 32 := rfl

/-! ### Reads after a store (R34, R42) -/

section Stored
variable {s : State} {a : Word}

/-- A read at another valid address gives what it gave before the store. -/
theorem State.memRead_commit_store_other {b : Word} (hm : s.mem.wf = true) (ha : validAddr s.config a = true)
    (hb : validAddr s.config b = true) (hne : b ≠ a) (reg : Option (Reg × Word)) (v npc : Word) :
    (s.commit reg (some (a, v)) npc).memRead b = s.memRead b := by
  rw [State.memRead_valid (by simpa using hb), State.memRead_valid hb, State.commit_mem_some,
    Memory.readWord_writeWord_other hm v (validAddr_disjoint hb ha hne).symm]

/-- By index: the store replaces the word at its own index. -/
theorem State.wordAt_commit_store_same (hc : s.config.wf = true) (hm : s.mem.wf = true)
    (ha : validAddr s.config a = true) (v npc : Word) :
    (s.commit none (some (a, v)) npc).wordAt (wordIndex s.config a) = v := by
  rw [State.wordAt, State.commit_config, wordAddr_wordIndex hc ha, State.commit_mem_some,
    Memory.readWord_writeWord_same hm]

/-- By index: words of different indices do not overlap. -/
theorem State.wordAt_commit_store_other (hc : s.config.wf = true) (hm : s.mem.wf = true)
    (ha : validAddr s.config a = true) {k : Nat} (hk : k ≠ wordIndex s.config a) (v npc : Word) :
    (s.commit none (some (a, v)) npc).wordAt k = s.wordAt k := by
  have hdisjoint : wordAddr s.config k + 4 ≤ a.toNat ∨ a.toNat + 4 ≤ wordAddr s.config k := by
    rw [← wordAddr_wordIndex hc ha, wordAddr, wordAddr]
    omega
  rw [State.wordAt, State.commit_config, State.commit_mem_some, Memory.readWord_writeWord_other hm v hdisjoint,
    State.wordAt]

end Stored

/-! ### The two instructions (R90, R91) -/

/-- Settles O18: opcode 0x23 is the default table's `lw`; R33's arithmetic decides between the load and the stop. -/
theorem lwLoadsOrStops : Obligations.LwLoadsOrStops := by
  refine ⟨fun w ho => decode_I (op := .lw) OpcodeTable.mips_wf ho, fun rs rt imm s ea hea => ?_⟩
  subst hea
  rw [← effectiveAddress_readReg]
  refine ⟨fun hv => ?_, fun hv => ?_⟩
  · rw [exec_lw_of_memRead (State.memRead_valid ((validAddr_iff _ _).2 hv)), State.finishReg_eq_update]
  · rw [exec_lw_of_invalid ((validAddr_eq_false_iff _ _).2 hv), State.stopWith_eq_update]

theorem State.commit_store_eq_update (s : State) (a v : Word) :
    s.commit none (some (a, v)) s.nextPc =
      { s with mem := s.mem.writeWord a.toNat v, pc := s.pc + 4#32, lastReg := none, lastMem := some a } := rfl

/-- Settles O19: opcode 0x2B is the default table's `sw`; R33's arithmetic decides between the store and the stop. -/
theorem swStoresOrStops : Obligations.SwStoresOrStops := by
  refine ⟨fun w ho => decode_I (op := .sw) OpcodeTable.mips_wf ho, fun rs rt imm s ea hea => ?_⟩
  subst hea
  rw [← effectiveAddress_readReg]
  refine ⟨fun hv => ?_, fun hv => ?_⟩
  · rw [exec_sw_of_valid ((validAddr_iff _ _).2 hv), State.commit_store_eq_update, State.readReg_eq_getElem s rt]
  · rw [exec_sw_of_invalid ((validAddr_eq_false_iff _ _).2 hv), State.stopWith_eq_update]

/-- Settles O28: a valid store writes the four bytes of its word, and an invalid one changes no byte. -/
theorem frameStore : Obligations.FrameStore := by
  intro rs rt imm s t hm h
  obtain hv | hv := Bool.eq_false_or_eq_true (validAddr s.config (effectiveAddress (s.readReg rs) imm))
  · cases (exec_sw_of_valid hv).symm.trans h
    refine ⟨fun _ => rfl, rfl, rfl, fun ea hea => ?_⟩
    subst hea
    refine ⟨fun a ha => Memory.readByte_writeWord_other hm _ ha, fun _ => ?_, fun hf => ?_⟩
    · exact ⟨State.memRead_commit_store_same hm hv .., rfl⟩
    · cases hv.symm.trans hf
  · cases (exec_sw_of_invalid hv).symm.trans h
    refine ⟨fun _ => rfl, rfl, rfl, fun ea hea => ?_⟩
    subst hea
    refine ⟨fun _ _ => rfl, fun ht => ?_, fun _ _ => rfl⟩
    cases hv.symm.trans ht

/-- Settles O34: a read gives the word at the index of a valid address and nothing at an invalid one. -/
theorem memReadByIndex : Obligations.MemReadByIndex := by
  intro s a hc
  split_ifs with hv
  · exact State.memRead_eq_wordAt hc ((validAddr_iff _ _).2 hv)
  · exact State.memRead_invalid ((validAddr_eq_false_iff _ _).2 hv)

/-- Settles O35: the stored word by index, or the stop, under which no word changes. -/
theorem memWriteOneWord : Obligations.MemWriteOneWord := by
  intro rs rt imm s t ea hc hm hea h
  subst hea
  rw [← effectiveAddress_readReg]
  refine ⟨fun hv => ?_, fun hv => ?_⟩
  · cases (exec_sw_of_valid hv).symm.trans h
    exact ⟨State.wordAt_commit_store_same hc hm hv .., fun k hk => State.wordAt_commit_store_other hc hm hv hk ..⟩
  · cases (exec_sw_of_invalid hv).symm.trans h
    exact ⟨fun _ => rfl, rfl⟩

/-- Settles O36: the load reads the memory the store left, at the stored address or at one disjoint from it. -/
theorem loadAfterStore : Obligations.LoadAfterStore := by
  intro rs rt rs' rt' imm imm' s t hm h hv hv'
  cases (exec_sw_of_valid hv).symm.trans h
  split_ifs with heq
  · refine ⟨_, exec_lw_of_memRead (v := s.readReg rt) ?_, State.readReg_finishReg_same ..⟩
    rw [State.readReg_commit_none, heq, State.memRead_commit_store_same hm hv]
  · refine ⟨_, exec_lw_of_memRead ?_, State.readReg_finishReg_same ..⟩
    rw [State.readReg_commit_none, State.memRead_commit_store_other hm hv hv' heq, State.memRead_valid hv']

/-- Settles O37: the loaded register holds the word of that address, and storing the word that is already there changes
no memory. -/
theorem loadStoreRoundTrip : Obligations.LoadStoreRoundTrip := by
  intro rs rs' rt imm imm' s t hm hv h hea
  cases (exec_lw_of_memRead (State.memRead_valid hv)).symm.trans h
  refine ⟨_, exec_sw_of_valid (by rw [hea, State.finishReg_config, hv]), ?_, ?_⟩
  · rw [hea, State.commit_mem_some, State.readReg_finishReg_same, State.finishReg_mem, Memory.writeWord_readWord hm]
  · rw [hea, State.commit_lastMem, Option.map_some]

end Sys2Proof.Machine
end

section
/-! PROOFS. The logical immediates and the control transfers (41_alu_ops.md section 2, 43_control_transfer.md), with the
frames of both and of the other register writers. -/

namespace Sys2Proof.Machine

/-! ### The result or the target of each instruction (R87, R88, R93 to R97) -/

section Results
variable (rs rt rd : Reg) (shamt : BitVec 5) (imm : BitVec 16) (target : BitVec 26) (s : State)

theorem exec_andi : exec (.andi rs rt imm) s = .next (s.finishReg rt (s.readReg rs &&& zimm imm)) := rfl

theorem exec_ori : exec (.ori rs rt imm) s = .next (s.finishReg rt (s.readReg rs ||| zimm imm)) := rfl

/-- A branch target, its test written as a proposition. -/
theorem State.branchTarget_of_iff {taken : Bool} {p : Prop} [Decidable p] (h : taken = true ↔ p) :
    s.branchTarget taken imm = (s.pc + 4#32) + (if p then imm.signExtend 32 <<< 2 else 0#32) := by
  rw [State.branchTarget, branchDelta, branchOffset, simm, State.nextPc, instrBytes, if_congr h rfl rfl]

theorem exec_beq : exec (.beq rs rt imm) s = .next (s.finishJump
    ((s.pc + 4#32) + (if s.readReg rs = s.readReg rt then imm.signExtend 32 <<< 2 else 0#32))) := by
  rw [← State.branchTarget_of_iff imm s beq_iff_eq]
  rfl

theorem exec_bne : exec (.bne rs rt imm) s = .next (s.finishJump
    ((s.pc + 4#32) + (if s.readReg rs ≠ s.readReg rt then imm.signExtend 32 <<< 2 else 0#32))) := by
  rw [← State.branchTarget_of_iff imm s bne_iff_ne]
  rfl

theorem exec_j : exec (.j target) s = .next (s.finishJump (jumpTarget s.pc target)) := rfl

theorem exec_jal :
    exec (.jal target) s = .next (s.commit (some (31, s.nextPc)) none (jumpTarget s.pc target)) := rfl

theorem exec_jr : exec (.jr rs rt rd shamt) s = .next (s.finishJump (s.readReg rs)) := rfl

theorem State.finishJump_eq_update (npc : Word) :
    s.finishJump npc = { s with pc := npc, lastReg := none, lastMem := none } := rfl

end Results

/-! ### `andi` and `ori` -/

/-- Settles O15: opcode 0x0C is the default table's `andi`, and its second operand is the zero-extended immediate. -/
theorem andiMasksImmediate : Obligations.AndiMasksImmediate := by
  refine ⟨fun w ho => decode_I (op := .andi) OpcodeTable.mips_wf ho, fun rs rt imm s => ?_⟩
  rw [exec_andi, State.finishReg_eq_update, State.readReg_eq_getElem, zimm]

/-- Settles O16: opcode 0x0D is the default table's `ori`, and its second operand is the zero-extended immediate. -/
theorem oriJoinsImmediate : Obligations.OriJoinsImmediate := by
  refine ⟨fun w ho => decode_I (op := .ori) OpcodeTable.mips_wf ho, fun rs rt imm s => ?_⟩
  rw [exec_ori, State.finishReg_eq_update, State.readReg_eq_getElem, zimm]

/-! ### The transfers -/

/-- The displacement of the immediate -1 leads back over the advance of the `pc`. -/
theorem add_four_add_back (pc : Word) : (pc + 4#32) + ((0xFFFF#16).signExtend 32 <<< 2) = pc := by
  rw [add_assoc, show 4#32 + ((0xFFFF#16).signExtend 32 <<< 2) = 0#32 by decide, BitVec.add_zero]

/-- Settles O20: opcode 0x04 is the default table's `beq`, and its target is that of a taken branch when the operands are
equal. -/
theorem beqBranches : Obligations.BeqBranches := by
  refine ⟨fun w ho => decode_I (op := .beq) OpcodeTable.mips_wf ho, fun rs rt imm s => ?_, fun rs rt s heq => ?_⟩
  · rw [exec_beq, State.finishJump_eq_update, State.readReg_eq_getElem, State.readReg_eq_getElem]
  · rw [exec_beq, State.readReg_eq_getElem, State.readReg_eq_getElem, if_pos heq, add_four_add_back,
      State.finishJump_eq_update]

/-- Settles O21: opcode 0x05 is the default table's `bne`, and a register does not differ from itself. -/
theorem bneBranches : Obligations.BneBranches := by
  refine ⟨fun w ho => decode_I (op := .bne) OpcodeTable.mips_wf ho, fun rs rt imm s => ?_, fun r imm s => ?_⟩
  · rw [exec_bne, State.finishJump_eq_update, State.readReg_eq_getElem, State.readReg_eq_getElem]
  · rw [exec_bne, if_neg (not_not_intro rfl), BitVec.add_zero, State.finishJump_eq_update]

/-- Settles O22: opcode 0x02 is the default table's `j`, and its target is `jumpTarget`. -/
theorem jumpGoesToTarget : Obligations.JumpGoesToTarget := by
  refine ⟨fun w ho => decode_J (op := .j) OpcodeTable.mips_wf ho, fun target s => ?_⟩
  rw [exec_j, State.finishJump_eq_update, jumpTarget, instrBytes]

/-- Settles O23: opcode 0x03 is the default table's `jal`, a commit of register 31 that goes on where `j` would. -/
theorem jalLinks : Obligations.JalLinks :=
  ⟨fun _ ho => decode_J (op := .jal) OpcodeTable.mips_wf ho, fun target s => exec_jal target s⟩

/-- Settles O24: funct 0x08 is the default table's `jr`, which checks nothing; the next step's fetch stops on an invalid
target. -/
theorem jrJumpsToRegister : Obligations.JrJumpsToRegister := by
  refine ⟨fun w ho hf => decode_R_of_funct_ne_zero (op := .jr) OpcodeTable.mips_wf (by decide) ho hf,
    fun rs rt rd shamt s => ⟨exec_jr rs rt rd shamt s, fun hs hv => ?_⟩⟩
  exact step_of_invalid_pc (s := s.finishJump s.regs[rs]) hs hv

/-! ### No delay slot (R92) -/

/-- The instruction is a control transfer whose target, from this state, is `target` (R93 to R97). -/
def TransfersTo (i : Instr) (target : Word) (s : State) : Prop :=
  (∃ rs rt rd sh, i = .jr rs rt rd sh ∧ target = s.readReg rs) ∨
    (∃ rs rt imm, i = .beq rs rt imm ∧
      target = (s.pc + 4#32) + (if s.readReg rs = s.readReg rt then imm.signExtend 32 <<< 2 else 0#32)) ∨
    (∃ rs rt imm, i = .bne rs rt imm ∧
      target = (s.pc + 4#32) + (if s.readReg rs ≠ s.readReg rt then imm.signExtend 32 <<< 2 else 0#32)) ∨
    (∃ index, (i = .j index ∨ i = .jal index) ∧ target = jumpTarget s.pc index)

/-- A transfer completes with its target as the next `pc`, and stores nothing. -/
theorem exec_of_transfersTo {i : Instr} {target : Word} {s : State} (h : TransfersTo i target s) :
    ∃ reg, exec i s = .next (s.commit reg none target) := by
  obtain ⟨rs, rt, rd, sh, rfl, rfl⟩ | ⟨rs, rt, imm, rfl, rfl⟩ | ⟨rs, rt, imm, rfl, rfl⟩ | ⟨index, rfl | rfl, rfl⟩ := h
  · exact ⟨none, exec_jr ..⟩
  · exact ⟨none, exec_beq ..⟩
  · exact ⟨none, exec_bne ..⟩
  · exact ⟨none, exec_j ..⟩
  · exact ⟨_, exec_jal ..⟩

/-- Settles O47: the state a transfer answers runs at the target with the memory and the parameters as they were, so the
next step is that of the word there. -/
theorem noDelaySlot : Obligations.NoDelaySlot := by
  intro i target s hs h
  obtain ⟨reg, he⟩ := exec_of_transfersTo h
  have hmem (a : Word) : (s.commit reg none target).memRead a = s.memRead a := State.memRead_congr rfl rfl a
  exact ⟨_, he, rfl, fun w next hw hd => step_of_decode_ok hs ((hmem target).trans hw) hd,
    fun w k hw hd => step_of_decode_error hs ((hmem target).trans hw) hd, fun hv => step_of_invalid_pc hs hv⟩

/-! ### Frames -/

section Frames
variable {rs rt rd : Reg} {sh : BitVec 5} {imm : BitVec 16} {target : BitVec 26} {s t : State}

/-- The end of a register writer, as a frame: every other register, every byte and the rest of the state stand. -/
theorem State.finishReg_frame (s : State) (rd : Reg) (v : Word) :
    (∀ r, r ≠ rd → (s.finishReg rd v).readReg r = s.readReg r) ∧
    (∀ a, (s.finishReg rd v).mem.readByte a = s.mem.readByte a) ∧
    (s.finishReg rd v).lastMem = none ∧ (s.finishReg rd v).config = s.config ∧ (s.finishReg rd v).status = s.status :=
  ⟨fun r hr => by rw [State.readReg_finishReg, if_neg hr], fun _ => rfl, rfl, rfl, rfl⟩

theorem finishReg_of_rFormat
    (h : exec (.addu rs rt rd sh) s = .next t ∨ exec (.subu rs rt rd sh) s = .next t ∨
      exec (.and rs rt rd sh) s = .next t ∨ exec (.or rs rt rd sh) s = .next t ∨
      exec (.slt rs rt rd sh) s = .next t ∨ exec (.sll rs rt rd sh) s = .next t ∨
      exec (.srl rs rt rd sh) s = .next t) : ∃ v, t = s.finishReg rd v := by
  obtain h | h | h | h | h | h | h := h <;> exact ⟨_, (Host.Outcome.next.inj h).symm⟩

/-- The one of these that can end otherwise is `lw`, which stops where its address is invalid. -/
theorem finishReg_or_stop_of_iFormat
    (h : exec (.addiu rs rt imm) s = .next t ∨ exec (.andi rs rt imm) s = .next t ∨
      exec (.ori rs rt imm) s = .next t ∨ exec (.lui rs rt imm) s = .next t ∨ exec (.lw rs rt imm) s = .next t) :
    (∃ v, t = s.finishReg rt v) ∨
      (∃ c, t = s.stopWith c) ∧ exec (.lw rs rt imm) s = .next t ∧
        validAddr s.config (effectiveAddress (s.readReg rs) imm) = false := by
  obtain h | h | h | h | hlw := h
  case inr.inr.inr.inr =>
    obtain hv | hv := Bool.eq_false_or_eq_true (validAddr s.config (effectiveAddress (s.readReg rs) imm))
    · cases (exec_lw_of_memRead (State.memRead_valid hv)).symm.trans hlw
      exact .inl ⟨_, rfl⟩
    · cases (exec_lw_of_invalid hv).symm.trans hlw
      exact .inr ⟨⟨_, rfl⟩, hlw, hv⟩
  all_goals exact .inl ⟨_, (Host.Outcome.next.inj h).symm⟩

theorem finishJump_of_transfer
    (h : exec (.jr rs rt rd sh) s = .next t ∨ exec (.beq rs rt imm) s = .next t ∨ exec (.bne rs rt imm) s = .next t ∨
      exec (.j target) s = .next t) : ∃ npc, t = s.finishJump npc := by
  obtain h | h | h | h := h <;> exact ⟨_, (Host.Outcome.next.inj h).symm⟩

end Frames

/-- Settles O25: all seven end in a register write to `rd`. -/
theorem frameRFormat : Obligations.FrameRFormat := by
  intro rs rt rd sh s t h
  obtain ⟨v, rfl⟩ := finishReg_of_rFormat h
  exact s.finishReg_frame rd v

/-- Settles O26: all five end in a register write to `rt`, but for `lw` at an invalid address, which stops. -/
theorem frameIFormat : Obligations.FrameIFormat := by
  intro rs rt imm s t h
  obtain ⟨v, rfl⟩ | ⟨⟨c, rfl⟩, hlw, hv⟩ := finishReg_or_stop_of_iFormat h
  · obtain ⟨hregs, hmem, hlast, hcfg, hstatus⟩ := s.finishReg_frame rt v
    exact ⟨hregs, hmem, hlast, hcfg, .inl hstatus⟩
  · exact ⟨fun _ _ => rfl, fun _ => rfl, rfl, rfl, .inr ⟨hlw, hv⟩⟩

/-- Settles O27: four end in a bare change of the `pc`, and `jal` in a register write to 31. -/
theorem frameTransfers : Obligations.FrameTransfers := by
  refine fun rs rt rd sh imm target s t => ⟨fun h => ?_, fun h => ?_⟩
  · obtain ⟨npc, rfl⟩ := finishJump_of_transfer h
    exact ⟨fun _ => rfl, fun _ => rfl, rfl, rfl, rfl, rfl⟩
  · cases (exec_jal target s).symm.trans h
    exact ⟨fun r hr => by rw [State.readReg_commit_some, if_neg hr], fun _ => rfl, rfl, rfl, rfl⟩

end Sys2Proof.Machine
end

section
/-! PROOFS. The state at reset and the placed word (70_reset_and_hazards.md R113, 20_memory.md R47). -/

namespace Sys2Proof.Machine

section Reset
variable {c : Config} (g : Vector Word 32) (m : List Word)

/-- The registers at reset: 29 and 0 are set after `GPR_RESET` fills all of them (R29). -/
theorem State.readReg_resetWith (r : Reg) :
    (State.resetWith c g m).readReg r = if r = 29 then spReset c else if r = 0 then 0#32 else g[r] := by
  simp only [State.readReg, State.resetWith_regs, resetRegs, Vector.getElem_set, Fin.ext_iff, eq_comm (a := r.val)]
  rfl

/-- The stack pointer's reset value does not wrap (R7, R29). -/
theorem spReset_toNat (hc : c.wf = true) : (spReset c).toNat = memEnd c :=
  Nat.mod_eq_of_lt ((Config.wf_iff c).1 hc).2.2

/-- Every part of the invariant holds at reset: the placed words are those that fit into memory, and both indicators are
`none`. -/
theorem State.inv_resetWith (hc : c.wf = true) : (State.resetWith c g m).Inv where
  config_wf := hc
  mem_wf := Memory.placeWords_wf Memory.nil_wf _ _
  mem_inside := by
    have hlen : (m.take (memWords c)).length ≤ memWords c := List.length_take_le _ _
    refine Memory.placeWords_inside _ rfl le_rfl ?_
    rw [State.resetWith_config, memEnd]
    omega
  lastMem_valid := fun _ ha => nomatch ha
  one_change := .inl rfl
  stop_recorded := fun _ hst => nomatch hst

end Reset

/-- Settles O50: the fields are those of `State.resetWith`, and each listed word is placed at its index. -/
theorem resetState : Obligations.ResetState := by
  refine fun c g m hc => ⟨rfl, rfl, rfl, rfl, rfl, ?_, ?_, fun r h0 h29 => ?_, fun k hk hmem => ?_⟩
  · rw [State.readReg_resetWith, if_neg (by decide), if_pos rfl]
  · rw [State.readReg_resetWith, if_pos rfl, spReset_toNat hc, memEnd, memWords]
  · rw [State.readReg_resetWith, if_neg h29, if_neg h0]
  · exact State.wordAt_resetWith g hk hmem

/-- Settles O51: `State.inv_resetWith`. -/
theorem invAtEveryReset : Obligations.InvAtEveryReset := fun _ g m => State.inv_resetWith g m

/-- Settles O52: the parameters of `State.reset` are legal. -/
theorem invAtReset : Obligations.InvAtReset := State.inv_resetWith _ _ (by decide)

/-! ### The placed word -/

/-- All 32 bits of a word are the word. -/
theorem tableWord_toNat (w : Word) : tableWord 32 w.toNat = w := by
  rw [tableWord, Nat.mod_eq_of_lt w.isLt, BitVec.ofNat_toNat, BitVec.setWidth_eq]

theorem State.memRead_withFetchWord {s : State} (hm : s.mem.wf = true) (hv : validAddr s.config s.pc = true) (w : Word) :
    (s.withFetchWord 32 w.toNat).memRead (s.withFetchWord 32 w.toNat).pc = some w := by
  rw [State.withFetchWord, tableWord_toNat, State.placeAtPc_pc, State.memRead_valid (by simpa using hv),
    State.placeAtPc_mem, Memory.readWord_writeWord_same hm]

/-- Settles O55: the placed word stands at the `pc` of a running state, whose next step is that of this word. -/
theorem placedWordRuns : Obligations.PlacedWordRuns := fun _ w hm hv =>
  have hw := State.memRead_withFetchWord hm hv w
  ⟨fun _ hd => step_of_decode_ok rfl hw hd, fun _ hd => step_of_decode_error rfl hw hd⟩

end Sys2Proof.Machine
end

section
/-! PROOFS. The step wired from the units (40_step_and_units.md R69 to R76) is the step written per instruction: the
decoder unit hands on the decoded instruction with its register snapshot, and the later units do what its meaning does. -/

namespace Sys2Proof.Machine

/-! ### The decoder unit -/

/-- What the decoder unit hands on for an instruction (R70): its fields with the register snapshot of the state. -/
def snapshot (s : State) : Instr → Decoded
  | .sll rs rt rd shamt => .r .sll rs rt rd shamt (s.readReg rs) (s.readReg rt)
  | .srl rs rt rd shamt => .r .srl rs rt rd shamt (s.readReg rs) (s.readReg rt)
  | .jr rs rt rd shamt => .r .jr rs rt rd shamt (s.readReg rs) (s.readReg rt)
  | .addu rs rt rd shamt => .r .addu rs rt rd shamt (s.readReg rs) (s.readReg rt)
  | .subu rs rt rd shamt => .r .subu rs rt rd shamt (s.readReg rs) (s.readReg rt)
  | .and rs rt rd shamt => .r .and rs rt rd shamt (s.readReg rs) (s.readReg rt)
  | .or rs rt rd shamt => .r .or rs rt rd shamt (s.readReg rs) (s.readReg rt)
  | .slt rs rt rd shamt => .r .slt rs rt rd shamt (s.readReg rs) (s.readReg rt)
  | .beq rs rt imm => .i .beq rs rt imm (simm imm) (zimm imm) (s.readReg rs) (s.readReg rt)
  | .bne rs rt imm => .i .bne rs rt imm (simm imm) (zimm imm) (s.readReg rs) (s.readReg rt)
  | .addiu rs rt imm => .i .addiu rs rt imm (simm imm) (zimm imm) (s.readReg rs) (s.readReg rt)
  | .andi rs rt imm => .i .andi rs rt imm (simm imm) (zimm imm) (s.readReg rs) (s.readReg rt)
  | .ori rs rt imm => .i .ori rs rt imm (simm imm) (zimm imm) (s.readReg rs) (s.readReg rt)
  | .lui rs rt imm => .i .lui rs rt imm (simm imm) (zimm imm) (s.readReg rs) (s.readReg rt)
  | .lw rs rt imm => .i .lw rs rt imm (simm imm) (zimm imm) (s.readReg rs) (s.readReg rt)
  | .sw rs rt imm => .i .sw rs rt imm (simm imm) (zimm imm) (s.readReg rs) (s.readReg rt)
  | .j target => .j .j target
  | .jal target => .j .jal target

section Snapshot
variable (s : State)

@[simp] theorem snapshot_ofR (op : ROp) (rs rt rd : Reg) (shamt : BitVec 5) :
    snapshot s (Instr.ofR op rs rt rd shamt) = .r op rs rt rd shamt (s.readReg rs) (s.readReg rt) := by cases op <;> rfl

@[simp] theorem snapshot_ofI (op : IOp) (rs rt : Reg) (imm : BitVec 16) :
    snapshot s (Instr.ofI op rs rt imm) =
      .i op rs rt imm (simm imm) (zimm imm) (s.readReg rs) (s.readReg rt) := by cases op <;> rfl

@[simp] theorem snapshot_ofJ (op : JOp) (target : BitVec 26) : snapshot s (Instr.ofJ op target) = .j op target := by
  cases op <;> rfl

/-- The decoder unit decodes as the decoder does, and takes the snapshot. -/
theorem decoderUnit_eq_decode (w : Word) : decoderUnit s w = (decode s.config.opcodes w).map (snapshot s) := by
  obtain ⟨h0, hd⟩ | ⟨h0, ho, hf, hd⟩ | ⟨op, h0, ho, hf, hd⟩ | ⟨op, ho, hj, hd⟩ | ⟨op, ho, hj, hi, hd⟩ |
    ⟨ho, hj, hi, hd⟩ := decode_cases s.config.opcodes w <;> rw [hd]
  · simp [decoderUnit, classify, h0, Except.map]
  · simp [decoderUnit, classify, h0, ho, hf, mem_rFuncts, Except.map]
  · simp [decoderUnit, classify, h0, ho, hf, mem_rFuncts, Except.map]
  · simp [decoderUnit, classify, ne_zero_of_opcode ho, ho, hj, mem_jOpcodes, Except.map]
  · simp [decoderUnit, classify, ne_zero_of_opcode ho, ho, hj, hi, mem_jOpcodes, mem_iOpcodes, Except.map]
  · simp [decoderUnit, classify, ne_zero_of_opcode ho, ho, hj, hi, mem_jOpcodes, mem_iOpcodes, Except.map]

end Snapshot

/-! ### The later units -/

/-- The outcome of the later units: the state they commit, or the stop one of them raised (R76, R100). -/
def unitsOutcome (s : State) : Except StopCause State → Host.Outcome State Fault Refusal
  | .error c => .next (s.stopWith c)
  | .ok t => .next t

/-- On an instruction's snapshot the later units do what its meaning does: the branches test their operands the same way,
and `lw` and `sw` find the same word or the same address invalid. -/
theorem exec_eq_runUnits (i : Instr) (s : State) : unitsOutcome s (runUnits s (snapshot s i)) = exec i s := by
  cases i with
  | beq rs rt imm =>
    rw [exec_beq]
    rfl
  | bne rs rt imm =>
    rw [exec_bne]
    rfl
  | lw rs rt imm =>
    cases h : s.memRead (s.readReg rs + simm imm) <;>
      simp only [exec, execLw, effectiveAddress, runUnits, snapshot, aluUnit, memAccess, h] <;> rfl
  | sw rs rt imm =>
    cases h : validAddr s.config (s.readReg rs + simm imm) <;>
      simp only [exec, execSw, effectiveAddress, runUnits, snapshot, aluUnit, memAccess, h] <;> rfl
  | _ => rfl

section Wiring
variable {s : State}

theorem stepUnits_of_stopped {st : Stop} (hs : s.status = .stopped st) : stepUnits s = .fault (.stopped st) := by
  simp [stepUnits, hs]

theorem stepUnits_of_invalid_pc (hs : s.status = .running) (hv : validAddr s.config s.pc = false) :
    stepUnits s = .next (s.stopWith (.undefinedAccess .fetch s.pc)) := by
  simp [stepUnits, hs, fetchWord, State.memRead_invalid hv]

theorem stepUnits_of_decode_error {w : Word} {k : DecodeFailure} (hs : s.status = .running)
    (hw : s.memRead s.pc = some w) (hd : decode s.config.opcodes w = .error k) :
    stepUnits s = .next (s.stopWith (.decodeFailure k w)) := by
  simp [stepUnits, hs, fetchWord, hw, decoderUnit_eq_decode, hd, Except.map]

theorem stepUnits_of_decode_ok {w : Word} {i : Instr} (hs : s.status = .running)
    (hw : s.memRead s.pc = some w) (hd : decode s.config.opcodes w = .ok i) :
    stepUnits s = unitsOutcome s (runUnits s (snapshot s i)) := by
  simp only [stepUnits, hs, fetchWord, hw, decoderUnit_eq_decode, hd, Except.map]
  cases runUnits s (snapshot s i) <;> rfl

end Wiring

/-- Settles O58: the two steps agree in each of the four ways a step can go. -/
theorem stepIsTheUnits : Obligations.StepIsTheUnits := by
  intro s
  obtain ⟨st, hs, he⟩ | ⟨hs, hv, he⟩ | ⟨w, k, hs, hw, hd, he⟩ | ⟨w, i, hs, hw, hd, he⟩ := step_cases s
  · rw [he, stepUnits_of_stopped hs]
  · rw [he, stepUnits_of_invalid_pc hs hv]
  · rw [he, stepUnits_of_decode_error hs hw hd]
  · rw [he, stepUnits_of_decode_ok hs hw hd, exec_eq_runUnits]

end Sys2Proof.Machine
end
